-- ==== Sys2Proof/Word.lean ====
section
/-! DEFINITION. The word types of the core and the integer views of a 32-bit value that the spec's notation fixes
(spec/00_scope.md R7, R10). -/

namespace Sys2Proof

/-- A 32-bit pattern: a general register, the pc, an address, an instruction word (00_scope.md R7). -/
abbrev Word := BitVec 32

/-- One byte of data memory (00_scope.md R7). -/
abbrev Byte := BitVec 8

/-- A register index, 0 to 31 (00_scope.md R7; 30_encoding.md R81: every value is legal). -/
abbrev RegIdx := Fin 32

/-- `u32(v)`: `v mod 2^32`, the unsigned 32-bit view (00_scope.md R10). -/
def u32 (v : Int) : Nat := (v % 2 ^ 32).toNat

/-- `s32(v)`: the signed 32-bit view (00_scope.md R10). -/
def s32 (v : Int) : Int := if u32 v < 2 ^ 31 then (u32 v : Int) else (u32 v : Int) - 2 ^ 32

/-- `sext_N(v)`: the low `n` bits of `v` as an `n`-bit two's-complement number (00_scope.md R10). -/
def sext (n : Nat) (v : Nat) : Int :=
  if v % 2 ^ n < 2 ^ (n - 1) then ((v % 2 ^ n : Nat) : Int) else ((v % 2 ^ n : Nat) : Int) - 2 ^ n

end Sys2Proof
end

