-- ==== Sys2Proof/Syntax.lean ====
section
/-! DEFINITION. The instructions of the core: one constructor per row of spec/opcode_table.json. -/

namespace Sys2Proof

/-- A decoded instruction (00_scope.md R13): its operation and operands. An immediate is the mathematical integer that
sign extension gives (30_encoding.md R93); `WellFormed.lean` says which integers an encoding can give. The sixth
variant, Unknown, is `Decoded.unknown` in `Decode.lean`: no instruction of the table stands for it. -/
inductive Instr where
  | add  (rd rs1 rs2 : RegIdx)
  | sub  (rd rs1 rs2 : RegIdx)
  | srl  (rd rs1 rs2 : RegIdx)
  | and  (rd rs1 rs2 : RegIdx)
  | or   (rd rs1 rs2 : RegIdx)
  | slt  (rd rs1 rs2 : RegIdx)
  | addi (rd rs1 : RegIdx) (imm : Int)
  | lw   (rd rs1 : RegIdx) (imm : Int)
  | jalr (rd rs1 : RegIdx) (imm : Int)
  | sw   (rs1 rs2 : RegIdx) (imm : Int)
  | beq  (rs1 rs2 : RegIdx) (imm : Int)
  | bne  (rs1 rs2 : RegIdx) (imm : Int)
  | blt  (rs1 rs2 : RegIdx) (imm : Int)
  | jal  (rd : RegIdx) (imm : Int)
deriving DecidableEq, Repr

/-- The mnemonic of an instruction's row in spec/opcode_table.json. -/
def Instr.mnemonic : Instr → String
  | .add _ _ _  => "add"
  | .sub _ _ _  => "sub"
  | .srl _ _ _  => "srl"
  | .and _ _ _  => "and"
  | .or _ _ _   => "or"
  | .slt _ _ _  => "slt"
  | .addi _ _ _ => "addi"
  | .lw _ _ _   => "lw"
  | .jalr _ _ _ => "jalr"
  | .sw _ _ _   => "sw"
  | .beq _ _ _  => "beq"
  | .bne _ _ _  => "bne"
  | .blt _ _ _  => "blt"
  | .jal _ _    => "jal"

/-- The registers an instruction reads (10_state.md R25). -/
def Instr.sources : Instr → List RegIdx
  | .add _ rs1 rs2  => [rs1, rs2]
  | .sub _ rs1 rs2  => [rs1, rs2]
  | .srl _ rs1 rs2  => [rs1, rs2]
  | .and _ rs1 rs2  => [rs1, rs2]
  | .or _ rs1 rs2   => [rs1, rs2]
  | .slt _ rs1 rs2  => [rs1, rs2]
  | .addi _ rs1 _   => [rs1]
  | .lw _ rs1 _     => [rs1]
  | .jalr _ rs1 _   => [rs1]
  | .sw rs1 rs2 _   => [rs1, rs2]
  | .beq rs1 rs2 _  => [rs1, rs2]
  | .bne rs1 rs2 _  => [rs1, rs2]
  | .blt rs1 rs2 _  => [rs1, rs2]
  | .jal _ _        => []

/-- The register an instruction names as destination, if any (10_state.md R25). -/
def Instr.dest : Instr → Option RegIdx
  | .add rd _ _  => some rd
  | .sub rd _ _  => some rd
  | .srl rd _ _  => some rd
  | .and rd _ _  => some rd
  | .or rd _ _   => some rd
  | .slt rd _ _  => some rd
  | .addi rd _ _ => some rd
  | .lw rd _ _   => some rd
  | .jalr rd _ _ => some rd
  | .sw _ _ _    => none
  | .beq _ _ _   => none
  | .bne _ _ _   => none
  | .blt _ _ _   => none
  | .jal rd _    => some rd

end Sys2Proof
end

