-- ==== Sys2Proof/WellFormed.lean ====
section
/-! DEFINITION. Which instructions an encoding can express: the immediates each format can hold (spec/30_encoding.md
R94 to R98; for the B and J forms even integers only, R96, R97 and spec/90_conflicts.md C4). -/

namespace Sys2Proof

/-- The 12-bit signed range of the I and S forms (30_encoding.md R94, R95). -/
def imm12Ok (imm : Int) : Bool := decide (-2048 ≤ imm) && decide (imm ≤ 2047)

/-- The even 13-bit signed range of the B form (30_encoding.md R96). -/
def immBOk (imm : Int) : Bool := decide (-4096 ≤ imm) && decide (imm ≤ 4094) && decide (imm % 2 = 0)

/-- The even 21-bit signed range of the J form (30_encoding.md R97). -/
def immJOk (imm : Int) : Bool := decide (-1048576 ≤ imm) && decide (imm ≤ 1048574) && decide (imm % 2 = 0)

/-- An instruction that some word encodes (30_encoding.md R98; a register field takes every index, R81). -/
def Instr.wellFormed : Instr → Bool
  | .add _ _ _    => true
  | .sub _ _ _    => true
  | .srl _ _ _    => true
  | .and _ _ _    => true
  | .or _ _ _     => true
  | .slt _ _ _    => true
  | .addi _ _ imm => imm12Ok imm
  | .lw _ _ imm   => imm12Ok imm
  | .jalr _ _ imm => imm12Ok imm
  | .sw _ _ imm   => imm12Ok imm
  | .beq _ _ imm  => immBOk imm
  | .bne _ _ imm  => immBOk imm
  | .blt _ _ imm  => immBOk imm
  | .jal _ imm    => immJOk imm

end Sys2Proof
end

