-- ==== Sys2Proof/Decode.lean ====
section
/-! DEFINITION. The Decoder, total on every 32-bit word (spec/30_encoding.md R80 to R105), the opcode table it follows
(R100), and the encoder written from the same format tables (R82 to R86). -/

namespace Sys2Proof

/-! ### Fields (30_encoding.md R81) -/

/-- `w[6:0]`. -/
def opcode (w : Word) : BitVec 7 := w.extractLsb 6 0
/-- `w[14:12]`. -/
def funct3 (w : Word) : BitVec 3 := w.extractLsb 14 12
/-- `w[31:25]`. -/
def funct7 (w : Word) : BitVec 7 := w.extractLsb 31 25
/-- `w[11:7]`. -/
def rdField (w : Word) : RegIdx := (w.extractLsb 11 7).toFin
/-- `w[19:15]`. -/
def rs1Field (w : Word) : RegIdx := (w.extractLsb 19 15).toFin
/-- `w[24:20]`. -/
def rs2Field (w : Word) : RegIdx := (w.extractLsb 24 20).toFin

/-! ### Immediates: the bits as the format lays them out, and their sign-extended value -/

/-- `w[31:20]` (30_encoding.md R94). -/
def immIBits (w : Word) : BitVec 12 := w.extractLsb 31 20
/-- `{w[31:25], w[11:7]}` (30_encoding.md R95). -/
def immSBits (w : Word) : BitVec 12 := w.extractLsb 31 25 ++ w.extractLsb 11 7
/-- `{w[31], w[7], w[30:25], w[11:8], 1'b0}` (30_encoding.md R96). -/
def immBBits (w : Word) : BitVec 13 :=
  w.extractLsb 31 31 ++ w.extractLsb 7 7 ++ w.extractLsb 30 25 ++ w.extractLsb 11 8 ++ 0#1
/-- `{w[31], w[19:12], w[20], w[30:21], 1'b0}` (30_encoding.md R97). -/
def immJBits (w : Word) : BitVec 21 :=
  w.extractLsb 31 31 ++ w.extractLsb 19 12 ++ w.extractLsb 20 20 ++ w.extractLsb 30 21 ++ 0#1

/-- The I immediate, `sext_12` of its bits (30_encoding.md R93, R94). -/
def immI (w : Word) : Int := (immIBits w).toInt
/-- The S immediate (30_encoding.md R93, R95). -/
def immS (w : Word) : Int := (immSBits w).toInt
/-- The B immediate (30_encoding.md R93, R96). -/
def immB (w : Word) : Int := (immBBits w).toInt
/-- The J immediate (30_encoding.md R93, R97). -/
def immJ (w : Word) : Int := (immJBits w).toInt

/-! ### The Decoder -/

/-- The Decoder's result: one of the table's instructions, or the Unknown variant carrying the raw word
(30_encoding.md R88; 00_scope.md R13). -/
inductive Decoded where
  | instr (i : Instr)
  | unknown (w : Word)
deriving DecidableEq, Repr

/-- The opcode 0110011 case of 30_encoding.md R101. -/
def decodeRType (w : Word) : Decoded :=
  if funct3 w = 0b000#3 ∧ funct7 w = 0b0000000#7 then .instr (.add (rdField w) (rs1Field w) (rs2Field w))
  else if funct3 w = 0b000#3 ∧ funct7 w = 0b0100000#7 then .instr (.sub (rdField w) (rs1Field w) (rs2Field w))
  else if funct3 w = 0b101#3 ∧ funct7 w = 0b0000000#7 then .instr (.srl (rdField w) (rs1Field w) (rs2Field w))
  else if funct3 w = 0b111#3 ∧ funct7 w = 0b0000000#7 then .instr (.and (rdField w) (rs1Field w) (rs2Field w))
  else if funct3 w = 0b110#3 ∧ funct7 w = 0b0000000#7 then .instr (.or (rdField w) (rs1Field w) (rs2Field w))
  else if funct3 w = 0b010#3 ∧ funct7 w = 0b0000000#7 then .instr (.slt (rdField w) (rs1Field w) (rs2Field w))
  else .unknown w

/-- The opcode 1100011 case of 30_encoding.md R101. -/
def decodeBType (w : Word) : Decoded :=
  if funct3 w = 0b000#3 then .instr (.beq (rs1Field w) (rs2Field w) (immB w))
  else if funct3 w = 0b001#3 then .instr (.bne (rs1Field w) (rs2Field w) (immB w))
  else if funct3 w = 0b100#3 then .instr (.blt (rs1Field w) (rs2Field w) (immB w))
  else .unknown w

/-- The Decoder as the algorithm of 30_encoding.md R101, comparing the selector fields strictly (R102). -/
def decode (w : Word) : Decoded :=
  if opcode w = 0b0110011#7 then decodeRType w
  else if opcode w = 0b0010011#7 then
    if funct3 w = 0b000#3 then .instr (.addi (rdField w) (rs1Field w) (immI w)) else .unknown w
  else if opcode w = 0b0000011#7 then
    if funct3 w = 0b010#3 then .instr (.lw (rdField w) (rs1Field w) (immI w)) else .unknown w
  else if opcode w = 0b1100111#7 then
    if funct3 w = 0b000#3 then .instr (.jalr (rdField w) (rs1Field w) (immI w)) else .unknown w
  else if opcode w = 0b0100011#7 then
    if funct3 w = 0b010#3 then .instr (.sw (rs1Field w) (rs2Field w) (immS w)) else .unknown w
  else if opcode w = 0b1100011#7 then decodeBType w
  else if opcode w = 0b1101111#7 then .instr (.jal (rdField w) (immJ w))
  else .unknown w

/-! ### The opcode table (30_encoding.md R100) -/

/-- One row of the table: a word `w` is the row's instruction exactly when `w & mask = value`. -/
structure OpcodeRow where
  mnemonic : String
  value : Word
  mask : Word
deriving DecidableEq, Repr

/-- The match and mask columns of 30_encoding.md R100. -/
def opcodeRows : List OpcodeRow :=
  [ ⟨"add",  0x00000033, 0xFE00707F⟩, ⟨"sub",  0x40000033, 0xFE00707F⟩, ⟨"srl",  0x00005033, 0xFE00707F⟩,
    ⟨"and",  0x00007033, 0xFE00707F⟩, ⟨"or",   0x00006033, 0xFE00707F⟩, ⟨"slt",  0x00002033, 0xFE00707F⟩,
    ⟨"addi", 0x00000013, 0x0000707F⟩, ⟨"lw",   0x00002003, 0x0000707F⟩, ⟨"jalr", 0x00000067, 0x0000707F⟩,
    ⟨"sw",   0x00002023, 0x0000707F⟩, ⟨"beq",  0x00000063, 0x0000707F⟩, ⟨"bne",  0x00001063, 0x0000707F⟩,
    ⟨"blt",  0x00004063, 0x0000707F⟩, ⟨"jal",  0x0000006F, 0x0000007F⟩ ]

/-- `w & mask = match`, the test of 30_encoding.md R100. -/
def OpcodeRow.matchesWord (r : OpcodeRow) (w : Word) : Bool := (w &&& r.mask) == r.value

/-! ### The encoder -/

/-- The R format (30_encoding.md R82). -/
def encodeR (f7 : BitVec 7) (rs2 rs1 : RegIdx) (f3 : BitVec 3) (rd : RegIdx) (op : BitVec 7) : Word :=
  f7 ++ BitVec.ofFin (w := 5) rs2 ++ BitVec.ofFin (w := 5) rs1 ++ f3 ++ BitVec.ofFin (w := 5) rd ++ op

/-- The I format (30_encoding.md R83). -/
def encodeI (imm : BitVec 12) (rs1 : RegIdx) (f3 : BitVec 3) (rd : RegIdx) (op : BitVec 7) : Word :=
  imm ++ BitVec.ofFin (w := 5) rs1 ++ f3 ++ BitVec.ofFin (w := 5) rd ++ op

/-- The S format (30_encoding.md R84). -/
def encodeS (imm : BitVec 12) (rs2 rs1 : RegIdx) (f3 : BitVec 3) (op : BitVec 7) : Word :=
  imm.extractLsb 11 5 ++ BitVec.ofFin (w := 5) rs2 ++ BitVec.ofFin (w := 5) rs1 ++ f3 ++ imm.extractLsb 4 0 ++ op

/-- The B format (30_encoding.md R85); bit 0 of the immediate has no place in the word. -/
def encodeB (imm : BitVec 13) (rs2 rs1 : RegIdx) (f3 : BitVec 3) (op : BitVec 7) : Word :=
  imm.extractLsb 12 12 ++ imm.extractLsb 10 5 ++ BitVec.ofFin (w := 5) rs2 ++ BitVec.ofFin (w := 5) rs1 ++ f3
    ++ imm.extractLsb 4 1 ++ imm.extractLsb 11 11 ++ op

/-- The J format (30_encoding.md R86); bit 0 of the immediate has no place in the word. -/
def encodeJ (imm : BitVec 21) (rd : RegIdx) (op : BitVec 7) : Word :=
  imm.extractLsb 20 20 ++ imm.extractLsb 10 1 ++ imm.extractLsb 11 11 ++ imm.extractLsb 19 12
    ++ BitVec.ofFin (w := 5) rd ++ op

/-- The word of a well-formed instruction: the format tables of 30_encoding.md R82 to R86 with the selector values of
R100. An immediate outside its format's range is cut to the format's width. -/
def encode : Instr → Word
  | .add rd rs1 rs2   => encodeR 0b0000000#7 rs2 rs1 0b000#3 rd 0b0110011#7
  | .sub rd rs1 rs2   => encodeR 0b0100000#7 rs2 rs1 0b000#3 rd 0b0110011#7
  | .srl rd rs1 rs2   => encodeR 0b0000000#7 rs2 rs1 0b101#3 rd 0b0110011#7
  | .and rd rs1 rs2   => encodeR 0b0000000#7 rs2 rs1 0b111#3 rd 0b0110011#7
  | .or rd rs1 rs2    => encodeR 0b0000000#7 rs2 rs1 0b110#3 rd 0b0110011#7
  | .slt rd rs1 rs2   => encodeR 0b0000000#7 rs2 rs1 0b010#3 rd 0b0110011#7
  | .addi rd rs1 imm  => encodeI (BitVec.ofInt 12 imm) rs1 0b000#3 rd 0b0010011#7
  | .lw rd rs1 imm    => encodeI (BitVec.ofInt 12 imm) rs1 0b010#3 rd 0b0000011#7
  | .jalr rd rs1 imm  => encodeI (BitVec.ofInt 12 imm) rs1 0b000#3 rd 0b1100111#7
  | .sw rs1 rs2 imm   => encodeS (BitVec.ofInt 12 imm) rs2 rs1 0b010#3 0b0100011#7
  | .beq rs1 rs2 imm  => encodeB (BitVec.ofInt 13 imm) rs2 rs1 0b000#3 0b1100011#7
  | .bne rs1 rs2 imm  => encodeB (BitVec.ofInt 13 imm) rs2 rs1 0b001#3 0b1100011#7
  | .blt rs1 rs2 imm  => encodeB (BitVec.ofInt 13 imm) rs2 rs1 0b100#3 0b1100011#7
  | .jal rd imm       => encodeJ (BitVec.ofInt 21 imm) rd 0b1101111#7

/-! ### The table's view of a word -/

/-- The one 32-bit word (30_encoding.md R80) whose bits, bit 0 the least significant, are the low `nbits` bits of `w`;
every bit above is 0. Instruction memory is delivered as whole words, so no byte order enters (20_memory.md R59). -/
def tableWord (nbits w : Nat) : Word := BitVec.ofNat 32 (w % 2 ^ nbits)

/-- The instruction the Decoder reads from a word given as spec/opcode_table.json numbers its bits; none where the word
decodes to Unknown. -/
def decodeTableWord (nbits w : Nat) : Option Instr :=
  match decode (tableWord nbits w) with
  | .instr i   => some i
  | .unknown _ => none

end Sys2Proof
end

