-- ==== Sys2Proof/Config.lean ====
section
/-! DEFINITION. The fixed parameters of the core (spec/00_scope.md R7). The parameters a run supplies (PROG, MEM_INIT,
SELF_JUMP_POLICY; R8) are fields of State, so that a statement about every state holds for every choice of them. -/

namespace Sys2Proof.Config

/-- `SP_RESET`, the reset value of `x2` (00_scope.md R7; 10_state.md R37). -/
def spReset : Word := 380

/-- The reset value of `x1` and `x3` to `x31` (10_state.md R37, the spec's decision D14; notes/assumptions/3.md). -/
def regReset : Word := 0

/-- `PC_RESET` (00_scope.md R7; 10_state.md R37). -/
def pcReset : Word := 0

/-- What a byte of data memory that nothing has written, and that MEM_INIT does not give, reads as
(20_memory.md R53: "addresses not yet written implicitly read as 0"). -/
def unlistedByte : Byte := 0

end Sys2Proof.Config
end

