-- ==== Sys2Proof/Machine/State.lean ====
section
/-! DEFINITION. The state of the machine as plain data, the reasons a step can stop, and the state after reset
(spec/10_state.md; spec/00_scope.md R8, R12). -/

namespace Sys2Proof.Machine

/-- Data memory as (address, byte) pairs (10_state.md R33); its canonical form is `Memory.wf` in `Memory.lean`. -/
abbrev Memory := List Host.Cell

/-- The status output of a step (00_scope.md R12; 60_exceptions.md R240). -/
inductive Status where
  | ok
  | selfJump
  | unrecognized (w : Word)
  | haltEnd
  | fetchFault
deriving DecidableEq, Repr

/-- `SELF_JUMP_POLICY`: what the driver does after a step that reports a self-jump (00_scope.md R8; the spec leaves it
open, 92_eei_decisions.md D9). -/
inductive SelfJumpPolicy where
  | continueRun
  | haltRun
deriving DecidableEq, Repr

/-- The state of the core and what a run of it is given. No instruction writes `prog`, `memInit` or `selfJumpPolicy`. -/
structure State where
  /-- The 32 general registers (10_state.md R21), read and written through `readReg` and `writeReg` only, which make
  `x0` read 0 and discard writes (R22). -/
  regs : Vector Word 32
  /-- The program counter (10_state.md R26). -/
  pc : Word
  /-- `DMEM`, the data memory (10_state.md R33). -/
  mem : Memory
  /-- `PROG`, the instruction memory image: word `i` is the instruction at byte address `4*i` (10_state.md R34;
  00_scope.md R8). -/
  prog : List Word
  /-- `MEM_INIT`, the initial data memory image, which reset reloads (00_scope.md R8; 70_reset_and_hazards.md R270). -/
  memInit : Memory
  /-- `SELF_JUMP_POLICY` (00_scope.md R8). -/
  selfJumpPolicy : SelfJumpPolicy
  /-- The status output of the step that led here; none until the first step (10_state.md R36, R37). -/
  status : Option Status
  /-- The stopped latch (10_state.md R36). -/
  stopped : Bool
deriving DecidableEq, Repr

/-- The reasons a step ends in a fault. -/
inductive Fault where
  /-- Raised by the step when the fetched word `w` decodes to Unknown (46_unknown.md R225; 60_exceptions.md R242):
  no state changes. Safe: the spec makes it fatal to the run. -/
  | unrecognized (w : Word)
  /-- Raised by the step when no instruction stands at the pc (60_exceptions.md R245): no state changes. Safe: the
  spec's decision D7 admits a fault where the source says nothing. -/
  | fetchFault (pc : Word)
  /-- Raised by the step of a core whose stopped latch is set (10_state.md R36: "it takes no further step until reset").
  Safe: nothing can be proved of a step that is not taken. -/
  | stopped
deriving DecidableEq, Repr

/-- The reasons a step is refused. -/
inductive Refusal where
  /-- Raised by `exec` for an instruction that has no meaning yet, by its mnemonic. Safe. No arm answers it: every
  instruction of the table has its meaning. -/
  | notModelled (mnemonic : String)
deriving DecidableEq, Repr

/-- What a step answers. -/
abbrev Result := Host.Outcome State Fault Refusal

/-- The register file after reset (10_state.md R37). -/
def resetRegs : Vector Word 32 := (Vector.replicate 32 Config.regReset).set 2 Config.spReset

/-- The state after reset for a run that is given `prog`, `memInit` and `policy` (10_state.md R37;
70_reset_and_hazards.md R270, R272). -/
def State.resetWith (prog : List Word) (memInit : Memory) (policy : SelfJumpPolicy) : State :=
  { regs := resetRegs
    pc := Config.pcReset
    mem := memInit
    prog := prog
    memInit := memInit
    selfJumpPolicy := policy
    status := none
    stopped := false }

/-- The state after reset with nothing supplied: no program, MEM_INIT at its default (00_scope.md R8), and a policy that
is the model's choice (notes/assumptions/6.md). -/
def State.reset : State := State.resetWith [] [] .continueRun

end Sys2Proof.Machine
end

