-- ==== Sys2Proof/Machine/Memory.lean ====
section
/-! DEFINITION. The data memory: its canonical form, one byte read and written, and the little-endian accesses `MemRead`
and `MemWrite` (spec/20_memory.md R51 to R56). -/

namespace Sys2Proof.Machine

/-- The canonical form: addresses strictly rising and inside the 2^32-byte space (10_state.md R33), and no entry equal
to what an unlisted address reads as, so that equal memories are equal data. -/
abbrev Memory.wf (m : Memory) : Prop :=
  m.Pairwise (fun c d => c.1 < d.1) ∧ ∀ c ∈ m, c.1 < 2 ^ 32 ∧ c.2 ≠ Config.unlistedByte

/-- The byte listed at a key, else what an unlisted address reads as. -/
def lookupByte : Memory → Nat → Byte
  | [], _ => Config.unlistedByte
  | c :: m, a => if c.1 = a then c.2 else lookupByte m a

/-- `DMEM[a]` (10_state.md R33). -/
def readByte (m : Memory) (a : Word) : Byte := lookupByte m a.toNat

/-- Place a cell before the first one with a higher address. -/
def insertCell (a : Nat) (b : Byte) : Memory → Memory
  | [] => [(a, b)]
  | c :: m => if a < c.1 then (a, b) :: c :: m else c :: insertCell a b m

/-- `DMEM[a] <- b`: the cell at `a` is replaced; storing what an unlisted address reads as removes it. -/
def writeByte (m : Memory) (a : Word) (b : Byte) : Memory :=
  if b = Config.unlistedByte then m.filter (fun c => c.1 != a.toNat)
  else insertCell a.toNat b (m.filter (fun c => c.1 != a.toNat))

/-- The widths of a data access (20_memory.md R53, R54); the instructions in scope use `word` only (R60). -/
inductive AccessSize where
  | byte
  | half
  | word
deriving DecidableEq, Repr

/-- The number of bytes of an access. -/
def AccessSize.bytes : AccessSize → Nat
  | .byte => 1
  | .half => 2
  | .word => 4

/-- `n` bytes from address `a` up, the lowest address the least significant, each address modulo 2^32
(20_memory.md R51, R53, R55). -/
def loadBytes (m : Memory) (a : Word) : Nat → Nat
  | 0 => 0
  | n + 1 => (readByte m a).toNat + 256 * loadBytes m (a + 1) n

/-- Store the low `n` bytes of `u` from address `a` up, the least significant at the lowest address, each address
modulo 2^32 (20_memory.md R51, R54, R55). -/
def storeBytes (m : Memory) (a : Word) : Nat → Nat → Memory
  | 0, _ => m
  | n + 1, u => storeBytes (writeByte m a (BitVec.ofNat 8 u)) (a + 1) n (u / 256)

/-- `MemRead(addr, n)` at the address `a = u32(addr)`: an unsigned value (20_memory.md R53). Any alignment is legal
(R56). -/
def memRead (m : Memory) (a : Word) (sz : AccessSize) : Nat := loadBytes m a sz.bytes

/-- `MemWrite(addr, n, v)` at the address `a = u32(addr)`: the low `8n` bits of `v` (20_memory.md R54). Any alignment is
legal (R56). -/
def memWrite (m : Memory) (a : Word) (sz : AccessSize) (v : Int) : Memory :=
  storeBytes m a sz.bytes (v % 2 ^ (8 * sz.bytes)).toNat

end Sys2Proof.Machine
end

