-- ==== Sys2Proof/Machine/Ops.lean ====
section
/-! DEFINITION. The named operations every meaning is written over: the register file, the pc, instruction fetch, the
ways a step completes or stops, and reset as an input. The machine has no exception entry and no return from one
(spec/60_exceptions.md R246, R247): the two `raise` forms and the `report` below are all it has instead. -/

namespace Sys2Proof.Machine

/-- The 32-bit pattern of an integer: `u32(v)` read as unsigned, `s32(v)` read as signed (00_scope.md R10). -/
def toWord (v : Int) : Word := BitVec.ofInt 32 v

/-! ### Registers (10_state.md R21 to R23) -/

/-- The 32-bit pattern of register `i`; register 0 reads 0 (10_state.md R22). -/
def readReg (s : State) (i : RegIdx) : Word := if i = 0 then 0 else s.regs.get i

/-- `x[i]` as a signed integer (10_state.md R21). -/
def xs (s : State) (i : RegIdx) : Int := (readReg s i).toInt

/-- `u32(x[i])`, the unsigned view of the same bits (10_state.md R21). -/
def xu (s : State) (i : RegIdx) : Nat := (readReg s i).toNat

/-- `x[i] <- v`: the value is reduced to 32 bits; a write to register 0 is discarded (10_state.md R22, R23). -/
def writeReg (s : State) (i : RegIdx) (v : Int) : State :=
  if i = 0 then s else { s with regs := s.regs.set i (toWord v) }

/-! ### The pc -/

/-- `pc + 4` before reduction: the next instruction in memory order, and the link value (10_state.md R26). -/
def pcPlus4 (s : State) : Int := (s.pc.toNat : Int) + 4

/-- `pc <- t`: the pc of the next step is `u32(t)` (10_state.md R28). -/
def setPc (s : State) (t : Int) : State := { s with pc := toWord t }

/-! ### Data memory, the status output and the stopped latch -/

/-- The state with another data memory. -/
def setMem (s : State) (m : Memory) : State := { s with mem := m }

/-- The status output of the step that answers this state (10_state.md R36). -/
def setStatus (s : State) (st : Status) : State := { s with status := some st }

/-- Set the stopped latch (10_state.md R36); only reset clears it. -/
def setStopped (s : State) : State := { s with stopped := true }

/-! ### How an executed instruction completes (40_step_cycle.md R130) -/

/-- The end of an instruction's rule: `pc <- t`, status `OK`. -/
def complete (s : State) (t : Int) : Result := .next (setStatus (setPc s t) .ok)

/-- `report SelfJump` with the pc advanced by 4 (60_exceptions.md R243): no register or memory change; under the
policy `halt` the stopped latch is set (10_state.md R36), under `continue` it is left as it was. -/
def reportSelfJump (s : State) : Result :=
  match s.selfJumpPolicy with
  | .continueRun => .next (setStatus (setPc s (pcPlus4 s)) .selfJump)
  | .haltRun => .next (setStopped (setStatus (setPc s (pcPlus4 s)) .selfJump))

/-! ### How a step stops (60_exceptions.md R242, R244, R245) -/

/-- `raise Unrecognized(w)` (60_exceptions.md R242). -/
def raiseUnrecognized (w : Word) : Result := .fault (.unrecognized w)

/-- `raise FetchFault(pc)` (60_exceptions.md R245). -/
def raiseFetchFault (pc : Word) : Result := .fault (.fetchFault pc)

/-- `HALT_END`: the normal end of a run, with no change of the Architectural State (60_exceptions.md R244); the core
is stopped (10_state.md R36). -/
def haltEnd (s : State) : Result := .next (setStopped (setStatus s .haltEnd))

/-- The status output of a step (10_state.md R36; 60_exceptions.md R240); none where the core takes no step. -/
def statusOf : Result → Option Status
  | .next s => s.status
  | .fault (.unrecognized w) => some (.unrecognized w)
  | .fault (.fetchFault _) => some .fetchFault
  | .fault .stopped => none
  | .refused _ => none

/-! ### Instruction fetch (20_memory.md R57 to R59) -/

/-- What instruction fetch answers. -/
inductive Fetched where
  | word (w : Word)
  | atEnd
  | noInstr
deriving DecidableEq, Repr

/-- `IFetch(p)` (20_memory.md R58). -/
def iFetch (prog : List Word) (p : Word) : Fetched :=
  if p.toNat % 4 ≠ 0 then .noInstr
  else
    match prog[p.toNat / 4]? with
    | some w => .word w
    | none => if p.toNat = 4 * prog.length then .atEnd else .noInstr

/-! ### Inputs from outside the core -/

/-- Reset applied to a core at any time: a new run of the same program, data memory reloaded from MEM_INIT
(70_reset_and_hazards.md R270). No step applies it: it is an input. -/
def applyReset (s : State) : State := State.resetWith s.prog s.memInit s.selfJumpPolicy

/-- The address of the program slot that holds byte address `p`: `p` with its low two bits cleared. -/
def slotAddr (p : Word) : Word := BitVec.ofNat 32 (4 * (p.toNat / 4))

/-- `prog` with the word `w` at index `i`, zero words before it where the program was shorter. -/
def placeWord (prog : List Word) (i : Nat) (w : Word) : List Word :=
  (prog ++ List.replicate (i + 1 - prog.length) 0).set i w

end Sys2Proof.Machine
end

