-- ==== Sys2Proof/Machine/Operands.lean ====
section
/-! DEFINITION. The operand forms: the effective address of `lw` and `sw`, the pc-relative target, the target of
`jalr`, and the shift amount. All are computed from the state before any write (spec/10_state.md R25;
spec/40_step_cycle.md R132). -/

namespace Sys2Proof.Machine

/-- `u32(x[rs1] + imm)`, the address of `lw` and `sw` (20_memory.md R55). -/
def effectiveAddr (s : State) (rs1 : RegIdx) (imm : Int) : Word := toWord (xs s rs1 + imm)

/-- `pc + imm` before reduction, relative to the instruction's own address (44_b_type.md R200; 45_j_type.md R216). -/
def pcRelative (s : State) (imm : Int) : Int := (s.pc.toNat : Int) + imm

/-- `u32(x[rs1] + imm) & 0xFFFFFFFE` (42_i_type.md R173, R174). -/
def jalrTarget (s : State) (rs1 : RegIdx) (imm : Int) : Word := toWord (xs s rs1 + imm) &&& 0xFFFFFFFE#32

/-- `u32(x[rs2]) & 0x1F` (41_r_type.md R153; 40_step_cycle.md R136). -/
def shiftAmount (s : State) (rs2 : RegIdx) : Nat := xu s rs2 &&& 0x1F

end Sys2Proof.Machine
end

