-- ==== Sys2Proof/Machine/Flags.lean ====
section
/-! DEFINITION. The machine has no flags (spec/10_state.md R30): what stands in their place is the three comparisons of
two registers that `slt` and the branches make (spec/40_step_cycle.md R135), and the branch that acts on one. -/

namespace Sys2Proof.Machine

/-- `x[rs1] = x[rs2]` (44_b_type.md R201). -/
def condEq (s : State) (rs1 rs2 : RegIdx) : Bool := decide (xs s rs1 = xs s rs2)

/-- `x[rs1] != x[rs2]` (44_b_type.md R202). -/
def condNe (s : State) (rs1 rs2 : RegIdx) : Bool := decide (xs s rs1 ≠ xs s rs2)

/-- `x[rs1] < x[rs2]`, signed (44_b_type.md R203; 41_r_type.md R156). -/
def condLt (s : State) (rs1 rs2 : RegIdx) : Bool := decide (xs s rs1 < xs s rs2)

/-- `if c then pc <- pc + imm else pc <- pc + 4` (44_b_type.md R200). -/
def branch (s : State) (c : Bool) (imm : Int) : Result := complete s (if c then pcRelative s imm else pcPlus4 s)

end Sys2Proof.Machine
end

