-- ==== Sys2Proof/Machine/BType.lean ====
section
/-! DEFINITION. The meanings of the B-type instructions (spec/44_b_type.md). -/

namespace Sys2Proof.Machine

/-- `beq` (44_b_type.md R201). -/
def execBeq (rs1 rs2 : RegIdx) (imm : Int) (s : State) : Result := branch s (condEq s rs1 rs2) imm

/-- `bne` (44_b_type.md R202). -/
def execBne (rs1 rs2 : RegIdx) (imm : Int) (s : State) : Result := branch s (condNe s rs1 rs2) imm

/-- `blt` (44_b_type.md R203). -/
def execBlt (rs1 rs2 : RegIdx) (imm : Int) (s : State) : Result := branch s (condLt s rs1 rs2) imm

end Sys2Proof.Machine
end

