-- ==== Sys2Proof/Machine/IType.lean ====
section
/-! DEFINITION. The meanings of the I-type instructions (spec/42_i_type.md). -/

namespace Sys2Proof.Machine

/-- `addi` (42_i_type.md R171). -/
def execAddi (rd rs1 : RegIdx) (imm : Int) (s : State) : Result :=
  complete (writeReg s rd (xs s rs1 + imm)) (pcPlus4 s)

/-- `lw` (42_i_type.md R172). -/
def execLw (rd rs1 : RegIdx) (imm : Int) (s : State) : Result :=
  complete (writeReg s rd (memRead s.mem (effectiveAddr s rs1 imm) .word)) (pcPlus4 s)

/-- `jalr` (42_i_type.md R173), with the self-jump case (R176). -/
def execJalr (rd rs1 : RegIdx) (imm : Int) (s : State) : Result :=
  if jalrTarget s rs1 imm = s.pc then reportSelfJump s
  else complete (writeReg s rd (pcPlus4 s)) ((jalrTarget s rs1 imm).toNat : Int)

end Sys2Proof.Machine
end

