-- ==== Sys2Proof/Machine/JType.lean ====
section
/-! DEFINITION. The meaning of the J-type instruction (spec/45_j_type.md). -/

namespace Sys2Proof.Machine

/-- `jal` (45_j_type.md R216). -/
def execJal (rd : RegIdx) (imm : Int) (s : State) : Result :=
  complete (writeReg s rd (pcPlus4 s)) (pcRelative s imm)

end Sys2Proof.Machine
end

