-- ==== Sys2Proof/Machine/RType.lean ====
section
/-! DEFINITION. The meanings of the R-type instructions (spec/41_r_type.md). -/

namespace Sys2Proof.Machine

/-- `add` (41_r_type.md R151). -/
def execAdd (rd rs1 rs2 : RegIdx) (s : State) : Result :=
  complete (writeReg s rd (xs s rs1 + xs s rs2)) (pcPlus4 s)

/-- `sub` (41_r_type.md R152). -/
def execSub (rd rs1 rs2 : RegIdx) (s : State) : Result :=
  complete (writeReg s rd (xs s rs1 - xs s rs2)) (pcPlus4 s)

/-- `srl` (41_r_type.md R153). -/
def execSrl (rd rs1 rs2 : RegIdx) (s : State) : Result :=
  complete (writeReg s rd (xu s rs1 >>> shiftAmount s rs2 : Nat)) (pcPlus4 s)

/-- `and` (41_r_type.md R154), on the 32-bit patterns. -/
def execAnd (rd rs1 rs2 : RegIdx) (s : State) : Result :=
  complete (writeReg s rd (readReg s rs1 &&& readReg s rs2).toInt) (pcPlus4 s)

/-- `or` (41_r_type.md R155), on the 32-bit patterns. -/
def execOr (rd rs1 rs2 : RegIdx) (s : State) : Result :=
  complete (writeReg s rd (readReg s rs1 ||| readReg s rs2).toInt) (pcPlus4 s)

/-- `slt` (41_r_type.md R156). -/
def execSlt (rd rs1 rs2 : RegIdx) (s : State) : Result :=
  complete (writeReg s rd (if condLt s rs1 rs2 then 1 else 0)) (pcPlus4 s)

end Sys2Proof.Machine
end

