-- ==== Sys2Proof/Machine/SType.lean ====
section
/-! DEFINITION. The meaning of the S-type instruction (spec/43_s_type.md). -/

namespace Sys2Proof.Machine

/-- `sw` (43_s_type.md R191). -/
def execSw (rs1 rs2 : RegIdx) (imm : Int) (s : State) : Result :=
  complete (setMem s (memWrite s.mem (effectiveAddr s rs1 imm) .word (xu s rs2))) (pcPlus4 s)

end Sys2Proof.Machine
end

