-- ==== Sys2Proof/Machine/Cycle.lean ====
section
/-! DEFINITION. The step cycle: fetch, decode, execute (spec/40_step_cycle.md R130). -/

namespace Sys2Proof.Machine

/-- What the core does with the answer of instruction fetch (40_step_cycle.md R130). -/
def stepFetched (s : State) : Fetched → Result
  | .atEnd => haltEnd s
  | .noInstr => raiseFetchFault s.pc
  | .word w =>
    match decode w with
    | .unknown raw => raiseUnrecognized raw
    | .instr i => exec i s

/-- One cycle of the core (40_step_cycle.md R130); a stopped core takes no step (10_state.md R36). -/
def stepCycle (s : State) : Result :=
  if s.stopped then .fault .stopped else stepFetched s (iFetch s.prog s.pc)

end Sys2Proof.Machine
end

