-- ==== Sys2Proof/Machine/Step.lean ====
section
/-! DEFINITION. The step of the machine (spec/40_step_cycle.md R130), and the state whose next step runs a given word. -/

namespace Sys2Proof.Machine

/-- One step of the core (40_step_cycle.md R130). -/
def step (s : State) : Host.Outcome State Fault Refusal := stepCycle s

/-- `s` with the instruction word given by `nbits` and `w` in the program slot the next step fetches. The fetch needs a
core that runs, a pc that is a multiple of 4 and a program that reaches the slot (20_memory.md R58): each is set where
it is not so already (notes/assumptions/5.md). -/
def State.withFetchWord (s : State) (nbits w : Nat) : State :=
  { s with
    pc := slotAddr s.pc
    prog := placeWord s.prog (s.pc.toNat / 4) (tableWord nbits w)
    stopped := false }

end Sys2Proof.Machine
end

