-- ==== Sys2Proof/Safety.lean ====
section
/-! DEFINITION. What holds of every state a run reaches, and what counts as a run that goes well
(spec/40_step_cycle.md R131; spec/60_exceptions.md R240 to R245). -/

namespace Sys2Proof.Machine

/-- The stopped latch agrees with the status output: it is set exactly after `HALT_END`, and after `SELF_JUMP` under the
policy `halt` (10_state.md R36; the other two stops answer a fault, so no state carries their status). -/
def latchAgrees (s : State) : Prop :=
  s.stopped = true ↔
    s.status = some .haltEnd ∨ (s.status = some .selfJump ∧ s.selfJumpPolicy = .haltRun)

/-- The invariant of a run. -/
structure Inv (s : State) : Prop where
  /-- Data memory keeps its canonical form. -/
  memWf : s.mem.wf
  /-- So does the image that reset reloads. -/
  memInitWf : s.memInit.wf
  /-- The slot behind the hard-wired register holds 0 (10_state.md R22). -/
  zeroSlot : s.regs.get 0 = 0
  /-- The pc is even; it need not be a multiple of 4 (10_state.md R29; 90_conflicts.md C2). -/
  pcEven : s.pc.toNat % 2 = 0
  /-- The latch agrees with the status. -/
  latch : latchAgrees s
  /-- The status of a step that stopped in a fault is never carried by a state (60_exceptions.md R242, R245). -/
  noFaultStatus : s.status ≠ some .fetchFault ∧ ∀ w, s.status ≠ some (.unrecognized w)

/-- `t` is reached from `s` by steps that each answered a next state. -/
inductive Reaches (s : State) : State → Prop where
  | refl : Reaches s s
  | tail (t u : State) : Reaches s t → step t = .next u → Reaches s u

/-- A run from `s` goes well: no step of it ends in `UNRECOGNIZED` or `FETCH_FAULT` (60_exceptions.md R242, R245). -/
def SafeRun (s : State) : Prop :=
  ∀ t, Reaches s t → (∀ w, step t ≠ .fault (.unrecognized w)) ∧ ∀ p, step t ≠ .fault (.fetchFault p)

/-- A run from `s` ends normally in `t`: the core stopped with `HALT_END` (40_step_cycle.md R131). -/
def EndsNormally (s t : State) : Prop := Reaches s t ∧ t.stopped = true ∧ t.status = some .haltEnd

/-! ### The vocabulary of the statements: what a step changes and what it keeps -/

/-- Register `rd` reads `v` afterwards and every other register reads as before; where `rd` is register 0 nothing is
written (10_state.md R22). -/
def SetsRegister (s t : State) (rd : RegIdx) (v : Int) : Prop :=
  ∀ r, xs t r = if r = rd ∧ rd ≠ 0 then v else xs s r

/-- Every register reads as before. -/
def KeepsRegisters (s t : State) : Prop := ∀ r, xs t r = xs s r

/-- Every byte of data memory reads as before. -/
def KeepsMemory (s t : State) : Prop := ∀ a, readByte t.mem a = readByte s.mem a

/-- What a run is given is as before: the program, the memory image reset reloads, the self-jump policy. -/
def KeepsRun (s t : State) : Prop :=
  t.prog = s.prog ∧ t.memInit = s.memInit ∧ t.selfJumpPolicy = s.selfJumpPolicy

/-- The pc is `u32(n)`, the status is `OK`, the latch is as before, and so is what the run is given. -/
def CompletesAt (s t : State) (n : Int) : Prop :=
  t.pc.toNat = u32 n ∧ t.status = some .ok ∧ t.stopped = s.stopped ∧ KeepsRun s t

/-- `DMEM[u32(addr)]` as a number (10_state.md R33). -/
def dmem (s : State) (addr : Int) : Nat := (readByte s.mem (BitVec.ofNat 32 (u32 addr))).toNat

/-- The next pc of an executed instruction, before reduction: the table of 10_state.md R27. -/
def nextPcTable (s : State) : Instr → Int
  | .add _ _ _       => s.pc.toNat + 4
  | .sub _ _ _       => s.pc.toNat + 4
  | .srl _ _ _       => s.pc.toNat + 4
  | .and _ _ _       => s.pc.toNat + 4
  | .or _ _ _        => s.pc.toNat + 4
  | .slt _ _ _       => s.pc.toNat + 4
  | .addi _ _ _      => s.pc.toNat + 4
  | .lw _ _ _        => s.pc.toNat + 4
  | .sw _ _ _        => s.pc.toNat + 4
  | .beq rs1 rs2 imm => if xs s rs1 = xs s rs2 then s.pc.toNat + imm else s.pc.toNat + 4
  | .bne rs1 rs2 imm => if xs s rs1 ≠ xs s rs2 then s.pc.toNat + imm else s.pc.toNat + 4
  | .blt rs1 rs2 imm => if xs s rs1 < xs s rs2 then s.pc.toNat + imm else s.pc.toNat + 4
  | .jal _ imm       => s.pc.toNat + imm
  | .jalr _ rs1 imm  =>
    if u32 (xs s rs1 + imm) / 2 * 2 = s.pc.toNat then s.pc.toNat + 4 else (u32 (xs s rs1 + imm) / 2 * 2 : Nat)

/-- The instruction with another destination register, where it names one. -/
def withDest (rd : RegIdx) : Instr → Instr
  | .add _ rs1 rs2   => .add rd rs1 rs2
  | .sub _ rs1 rs2   => .sub rd rs1 rs2
  | .srl _ rs1 rs2   => .srl rd rs1 rs2
  | .and _ rs1 rs2   => .and rd rs1 rs2
  | .or _ rs1 rs2    => .or rd rs1 rs2
  | .slt _ rs1 rs2   => .slt rd rs1 rs2
  | .addi _ rs1 imm  => .addi rd rs1 imm
  | .lw _ rs1 imm    => .lw rd rs1 imm
  | .jalr _ rs1 imm  => .jalr rd rs1 imm
  | .jal _ imm       => .jal rd imm
  | .sw rs1 rs2 imm  => .sw rs1 rs2 imm
  | .beq rs1 rs2 imm => .beq rs1 rs2 imm
  | .bne rs1 rs2 imm => .bne rs1 rs2 imm
  | .blt rs1 rs2 imm => .blt rs1 rs2 imm

end Sys2Proof.Machine
end

