-- ==== Sys2Proof/Certificates/Slice0/Obligations.lean ====
section
/-! DEFINITION. The statements for the provers, from the numbered rules of spec/. A statement's docstring names its rules;
where a clause rests on a point the spec marks as its own decision (spec/92_eei_decisions.md), it names the decision. -/

open Sys2Proof Sys2Proof.Machine

/-! ### Each instruction: its result, where it completes, and its frame.
The pc is reduced modulo 2^32 in every one of them: decision D3 (10_state.md R28; notes/assumptions/8.md). -/

/-- `add` (41_r_type.md R151): `x[rd] <- x[rs1] + x[rs2]`, reduced by `s32`; the pc's wrap is decision D3. -/
def Obligations.AddWritesWrappedSum : Prop :=
  ∀ (rd rs1 rs2 : RegIdx) (s : State), ∃ t, exec (.add rd rs1 rs2) s = .next t ∧
    SetsRegister s t rd (s32 (xs s rs1 + xs s rs2)) ∧ KeepsMemory s t ∧ CompletesAt s t (s.pc.toNat + 4)

/-- `sub` (41_r_type.md R152): `x[rd] <- x[rs1] - x[rs2]`, reduced by `s32`; the pc's wrap is decision D3. -/
def Obligations.SubWritesWrappedDifference : Prop :=
  ∀ (rd rs1 rs2 : RegIdx) (s : State), ∃ t, exec (.sub rd rs1 rs2) s = .next t ∧
    SetsRegister s t rd (s32 (xs s rs1 - xs s rs2)) ∧ KeepsMemory s t ∧ CompletesAt s t (s.pc.toNat + 4)

/-- `srl` (41_r_type.md R153): the unsigned view of `x[rs1]` divided by 2 to the low five bits of `x[rs2]`; the pc's
wrap is decision D3. -/
def Obligations.SrlWritesLogicalShift : Prop :=
  ∀ (rd rs1 rs2 : RegIdx) (s : State), ∃ t, exec (.srl rd rs1 rs2) s = .next t ∧
    SetsRegister s t rd (s32 ((u32 (xs s rs1) / 2 ^ (u32 (xs s rs2) % 32) : Nat) : Int)) ∧ KeepsMemory s t ∧
    CompletesAt s t (s.pc.toNat + 4)

/-- `and` (41_r_type.md R154): bitwise on the 32-bit patterns; the pc's wrap is decision D3. -/
def Obligations.AndWritesBitwiseAnd : Prop :=
  ∀ (rd rs1 rs2 : RegIdx) (s : State), ∃ t, exec (.and rd rs1 rs2) s = .next t ∧
    SetsRegister s t rd (s32 ((u32 (xs s rs1) &&& u32 (xs s rs2) : Nat) : Int)) ∧ KeepsMemory s t ∧
    CompletesAt s t (s.pc.toNat + 4)

/-- `or` (41_r_type.md R155): bitwise on the 32-bit patterns; the pc's wrap is decision D3. -/
def Obligations.OrWritesBitwiseOr : Prop :=
  ∀ (rd rs1 rs2 : RegIdx) (s : State), ∃ t, exec (.or rd rs1 rs2) s = .next t ∧
    SetsRegister s t rd (s32 ((u32 (xs s rs1) ||| u32 (xs s rs2) : Nat) : Int)) ∧ KeepsMemory s t ∧
    CompletesAt s t (s.pc.toNat + 4)

/-- `slt` (41_r_type.md R156): 1 or 0 by a signed comparison; the pc's wrap is decision D3. -/
def Obligations.SltWritesSignedLess : Prop :=
  ∀ (rd rs1 rs2 : RegIdx) (s : State), ∃ t, exec (.slt rd rs1 rs2) s = .next t ∧
    SetsRegister s t rd (if xs s rs1 < xs s rs2 then 1 else 0) ∧ KeepsMemory s t ∧ CompletesAt s t (s.pc.toNat + 4)

/-- `addi` (42_i_type.md R171): `x[rd] <- x[rs1] + imm`, reduced by `s32`; the pc's wrap is decision D3. -/
def Obligations.AddiWritesWrappedSum : Prop :=
  ∀ (rd rs1 : RegIdx) (imm : Int) (s : State), ∃ t, exec (.addi rd rs1 imm) s = .next t ∧
    SetsRegister s t rd (s32 (xs s rs1 + imm)) ∧ KeepsMemory s t ∧ CompletesAt s t (s.pc.toNat + 4)

/-- `lw` (42_i_type.md R172): the four bytes from `u32(x[rs1] + imm)` up, the lowest address the least significant, at
any address and any alignment; the wrap of the byte addresses is decision D4, that of the pc D3. -/
def Obligations.LwLoadsLittleEndianWord : Prop :=
  ∀ (rd rs1 : RegIdx) (imm : Int) (s : State), ∃ t, exec (.lw rd rs1 imm) s = .next t ∧
    SetsRegister s t rd (s32 ((dmem s (xs s rs1 + imm) + dmem s (xs s rs1 + imm + 1) * 2 ^ 8
      + dmem s (xs s rs1 + imm + 2) * 2 ^ 16 + dmem s (xs s rs1 + imm + 3) * 2 ^ 24 : Nat) : Int)) ∧
    KeepsMemory s t ∧ CompletesAt s t (s.pc.toNat + 4)

/-- `jalr` (42_i_type.md R173, R174, R176): the target is the reduced sum with bit 0 cleared. Where it is not the pc, the
link is written and the pc is the target. Where it is the pc, nothing is linked, the pc advances by 4, the status is
`SELF_JUMP`, and the latch is set under the policy `halt` only (60_exceptions.md R243). The width of the comparison is
decision D17, the pc's wrap D3. -/
def Obligations.JalrLinksOrReportsSelfJump : Prop :=
  ∀ (rd rs1 : RegIdx) (imm : Int) (s : State), ∃ t, exec (.jalr rd rs1 imm) s = .next t ∧ KeepsMemory s t ∧
    if u32 (xs s rs1 + imm) / 2 * 2 = s.pc.toNat then
      KeepsRegisters s t ∧ t.pc.toNat = u32 (s.pc.toNat + 4) ∧ t.status = some .selfJump ∧ KeepsRun s t ∧
        (s.selfJumpPolicy = .continueRun → t.stopped = s.stopped) ∧ (s.selfJumpPolicy = .haltRun → t.stopped = true)
    else
      SetsRegister s t rd (s32 (s.pc.toNat + 4)) ∧ CompletesAt s t (u32 (xs s rs1 + imm) / 2 * 2 : Nat)

/-- `sw` (43_s_type.md R191): the four bytes of `x[rs2]` from the effective address up, the least significant at the
lowest address, at any address and any alignment; every other byte reads as before. The wrap of the byte addresses is
decision D4, that of the pc D3. -/
def Obligations.SwStoresLittleEndianWord : Prop :=
  ∀ (rs1 rs2 : RegIdx) (imm : Int) (s : State), ∃ t, exec (.sw rs1 rs2 imm) s = .next t ∧
    (effectiveAddr s rs1 imm).toNat = u32 (xs s rs1 + imm) ∧
    (∀ k : Nat, k < 4 → (readByte t.mem (effectiveAddr s rs1 imm + BitVec.ofNat 32 k)).toNat
      = u32 (xs s rs2) / 2 ^ (8 * k) % 256) ∧
    (∀ a, (∀ k : Nat, k < 4 → a ≠ effectiveAddr s rs1 imm + BitVec.ofNat 32 k) → readByte t.mem a = readByte s.mem a) ∧
    KeepsRegisters s t ∧ CompletesAt s t (s.pc.toNat + 4)

/-- `beq` (44_b_type.md R201): taken exactly when the two registers are equal; the pc's wrap is decision D3. -/
def Obligations.BeqBranchesWhenEqual : Prop :=
  ∀ (rs1 rs2 : RegIdx) (imm : Int) (s : State), ∃ t, exec (.beq rs1 rs2 imm) s = .next t ∧
    KeepsRegisters s t ∧ KeepsMemory s t ∧
    CompletesAt s t (if xs s rs1 = xs s rs2 then s.pc.toNat + imm else s.pc.toNat + 4)

/-- `bne` (44_b_type.md R202): taken exactly when the two registers differ; the pc's wrap is decision D3. -/
def Obligations.BneBranchesWhenDifferent : Prop :=
  ∀ (rs1 rs2 : RegIdx) (imm : Int) (s : State), ∃ t, exec (.bne rs1 rs2 imm) s = .next t ∧
    KeepsRegisters s t ∧ KeepsMemory s t ∧
    CompletesAt s t (if xs s rs1 = xs s rs2 then s.pc.toNat + 4 else s.pc.toNat + imm)

/-- `blt` (44_b_type.md R203): taken exactly when `x[rs1]` is less than `x[rs2]` as signed values; the pc's wrap is
decision D3. -/
def Obligations.BltBranchesWhenSignedLess : Prop :=
  ∀ (rs1 rs2 : RegIdx) (imm : Int) (s : State), ∃ t, exec (.blt rs1 rs2 imm) s = .next t ∧
    KeepsRegisters s t ∧ KeepsMemory s t ∧
    CompletesAt s t (if xs s rs1 < xs s rs2 then s.pc.toNat + imm else s.pc.toNat + 4)

/-- `jal` (45_j_type.md R216): the link is `pc + 4`, the target relative to the instruction's own address; the pc's wrap
is decision D3. -/
def Obligations.JalLinksAndJumps : Prop :=
  ∀ (rd : RegIdx) (imm : Int) (s : State), ∃ t, exec (.jal rd imm) s = .next t ∧
    SetsRegister s t rd (s32 (s.pc.toNat + 4)) ∧ KeepsMemory s t ∧ CompletesAt s t (s.pc.toNat + imm)

/-! ### Registers -/

/-- Every register holds a signed 32-bit value, its unsigned view is `u32` of it, and no two registers are aliases of one
another: a write to one leaves every other as it was (10_state.md R21). -/
def Obligations.RegistersHoldSigned32BitValues : Prop :=
  ∀ (s : State) (i : RegIdx), -2 ^ 31 ≤ xs s i ∧ xs s i ≤ 2 ^ 31 - 1 ∧ xu s i = u32 (xs s i) ∧
    ∀ (j : RegIdx) (v : Int), j ≠ i → xs (writeReg s i v) j = xs s j

/-- Register 0 (10_state.md R22): it reads 0 in every state, a write to it changes nothing, and an instruction that
names it as destination writes no register and has all its other effects, those it has with any other destination. -/
def Obligations.RegisterZeroIsHardwired : Prop :=
  (∀ s, xs s 0 = 0) ∧ (∀ s v, writeReg s 0 v = s) ∧
    ∀ (i : Instr) (rd : RegIdx) (s t : State), exec (withDest rd i) s = .next t →
      exec (withDest 0 i) s = .next { t with regs := s.regs }

/-- A register write (10_state.md R23): the register reads `s32(v)` afterwards, for an integer `v` of any magnitude, and
no other register changes; two registers are equal as signed integers exactly when their patterns are (the spec's own
consequence in R23). -/
def Obligations.RegisterWriteReducesTo32Bits : Prop :=
  (∀ (s : State) (i : RegIdx) (v : Int), SetsRegister s (writeReg s i v) i (s32 v)) ∧
    ∀ (s : State) (i j : RegIdx), xs s i = xs s j ↔ readReg s i = readReg s j

/-- The computed results are those of 32-bit two's-complement arithmetic: sum and difference modulo 2^32 (40_step_cycle.md
R134), the logical shift by the low five bits (R136), the bitwise operations on patterns (R137). None stops or reports
anything; register 0 as destination still reads 0. -/
def Obligations.ArithmeticIsThatOf32BitPatterns : Prop :=
  ∀ (rd rs1 rs2 : RegIdx) (imm : Int) (s : State),
    let gives := fun (i : Instr) (v : Word) =>
      ∃ t, exec i s = .next t ∧ readReg t rd = (if rd = 0 then 0 else v) ∧ t.status = some .ok
    gives (.add rd rs1 rs2) (readReg s rs1 + readReg s rs2) ∧
    gives (.sub rd rs1 rs2) (readReg s rs1 - readReg s rs2) ∧
    gives (.addi rd rs1 imm) (readReg s rs1 + BitVec.ofInt 32 imm) ∧
    gives (.srl rd rs1 rs2) (readReg s rs1 >>> (readReg s rs2 &&& 0x1F#32)) ∧
    gives (.and rd rs1 rs2) (readReg s rs1 &&& readReg s rs2) ∧
    gives (.or rd rs1 rs2) (readReg s rs1 ||| readReg s rs2)

/-- The access table of 10_state.md R25: two states that agree on the registers an instruction reads, on the pc and on
what else it may see, agree afterwards on everything the instruction determines: the pc, the status, the latch, memory,
and its destination register where it completes with `OK` (a self-jump writes none). -/
def Obligations.SourceRegistersDetermineTheEffect : Prop :=
  ∀ (i : Instr) (s t s' t' : State), (∀ r ∈ i.sources, xs s r = xs t r) → s.pc = t.pc → s.stopped = t.stopped →
    s.selfJumpPolicy = t.selfJumpPolicy → (∀ a, readByte s.mem a = readByte t.mem a) →
    exec i s = .next s' → exec i t = .next t' →
      s'.pc = t'.pc ∧ s'.status = t'.status ∧ s'.stopped = t'.stopped ∧
      (∀ a, readByte s'.mem a = readByte t'.mem a) ∧
      (∀ r, i.dest = some r → s'.status = some .ok → xs s' r = xs t' r) ∧
      ∀ r, i.dest ≠ some r → xs s' r = xs s r ∧ xs t' r = xs t r

/-! ### Data memory -/

/-- `MemRead` (20_memory.md R53): the sum of the bytes, each at its own address modulo 2^32 (decision D4). -/
def Obligations.MemReadSumsItsBytes : Prop :=
  ∀ (m : Memory) (addr : Int) (sz : AccessSize), memRead m (toWord addr) sz
    = ((List.range sz.bytes).map fun k : Nat => (readByte m (toWord (u32 addr + k))).toNat * 2 ^ (8 * k)).sum

/-- `MemWrite` (20_memory.md R54): byte `k` is bits `8k+7` to `8k` of `v mod 2^(8n)`, each at its own address modulo 2^32
(decision D4), and no other byte changes. -/
def Obligations.MemWriteSetsItsBytesOnly : Prop :=
  ∀ (m : Memory) (addr : Int) (sz : AccessSize) (v : Int),
    (∀ k : Nat, k < sz.bytes → (readByte (memWrite m (toWord addr) sz v) (toWord (u32 addr + k))).toNat
      = (v % 2 ^ (8 * sz.bytes)).toNat / 2 ^ (8 * k) % 256) ∧
    ∀ a, (∀ k : Nat, k < sz.bytes → a ≠ toWord (u32 addr + k)) → readByte (memWrite m (toWord addr) sz v) a = readByte m a

/-- What is stored is what is loaded, at every address and width (20_memory.md R53, R54, R60): a read of what a write of
the same width stored gives `v mod 2^(8n)`. Where the access passes the top of the space its addresses wrap (D4). -/
def Obligations.LoadAfterStoreGivesTheValue : Prop :=
  ∀ (m : Memory) (a : Word) (sz : AccessSize) (v : Int),
    ((memRead (memWrite m a sz v) a sz : Nat) : Int) = v % ((2 ^ (8 * sz.bytes) : Nat) : Int)

/-- Data memory (10_state.md R33): a byte not written, in a run given no image, reads 0; in a run given an image the
initial byte is the image's; only `sw` writes it; only `lw` reads it: every other instruction has the same effects over
any other data memory `m`, which it leaves as it was, and `sw` makes of `m` what its store of the same word at the same
address makes of it (43_s_type.md R191), neither of which depends on data memory. -/
def Obligations.DataMemoryIsReadByLwAndWrittenBySw : Prop :=
  (∀ a, readByte State.reset.mem a = 0) ∧
  (∀ prog image policy a, readByte (State.resetWith prog image policy).mem a = readByte image a) ∧
  (∀ (i : Instr) (s t : State), i.mnemonic ≠ "sw" → exec i s = .next t → KeepsMemory s t) ∧
  ∀ (i : Instr) (s t : State) (m : Memory), i.mnemonic ≠ "lw" → exec i s = .next t →
    ∃ m', exec i { s with mem := m } = .next { t with mem := m' } ∧ (i.mnemonic ≠ "sw" → m' = m) ∧
      ∀ rs1 rs2 imm, i = .sw rs1 rs2 imm → m' = memWrite m (effectiveAddr s rs1 imm) .word (xu s rs2)

/-! ### The Decoder and the encoder -/

/-- Field positions (30_encoding.md R81): the selector fields, and the register fields of whatever is decoded. -/
def Obligations.FieldsStandAtTheirFixedPositions : Prop :=
  ∀ w : Word, (opcode w).toNat = w.toNat % 2 ^ 7 ∧ (funct3 w).toNat = w.toNat / 2 ^ 12 % 2 ^ 3 ∧
    (funct7 w).toNat = w.toNat / 2 ^ 25 % 2 ^ 7 ∧
    ∀ i, decode w = .instr i →
      (∀ r, i.dest = some r → r.val = w.toNat / 2 ^ 7 % 2 ^ 5) ∧
      (∀ r, i.sources[0]? = some r → r.val = w.toNat / 2 ^ 15 % 2 ^ 5) ∧
      (∀ r, i.sources[1]? = some r → r.val = w.toNat / 2 ^ 20 % 2 ^ 5)

/-- The I immediate (30_encoding.md R94). -/
def Obligations.ImmediateOfIFormIsSignExtended : Prop :=
  ∀ (w : Word) (rd rs1 : RegIdx) (imm : Int),
    (decode w = .instr (.addi rd rs1 imm) ∨ decode w = .instr (.lw rd rs1 imm) ∨ decode w = .instr (.jalr rd rs1 imm)) →
      imm = sext 12 (w.toNat / 2 ^ 20 % 2 ^ 12) ∧ -2048 ≤ imm ∧ imm ≤ 2047

/-- The S immediate (30_encoding.md R95). -/
def Obligations.ImmediateOfSFormIsSignExtended : Prop :=
  ∀ (w : Word) (rs1 rs2 : RegIdx) (imm : Int), decode w = .instr (.sw rs1 rs2 imm) →
    imm = sext 12 (w.toNat / 2 ^ 25 % 2 ^ 7 * 2 ^ 5 + w.toNat / 2 ^ 7 % 2 ^ 5) ∧ -2048 ≤ imm ∧ imm ≤ 2047

/-- The B immediate (30_encoding.md R96). -/
def Obligations.ImmediateOfBFormIsSignExtended : Prop :=
  ∀ (w : Word) (rs1 rs2 : RegIdx) (imm : Int),
    (decode w = .instr (.beq rs1 rs2 imm) ∨ decode w = .instr (.bne rs1 rs2 imm) ∨ decode w = .instr (.blt rs1 rs2 imm)) →
      imm = sext 13 (w.toNat / 2 ^ 31 % 2 * 2 ^ 12 + w.toNat / 2 ^ 7 % 2 * 2 ^ 11 + w.toNat / 2 ^ 25 % 2 ^ 6 * 2 ^ 5
        + w.toNat / 2 ^ 8 % 2 ^ 4 * 2) ∧ imm % 2 = 0 ∧ -4096 ≤ imm ∧ imm ≤ 4094

/-- The J immediate (30_encoding.md R97). -/
def Obligations.ImmediateOfJFormIsSignExtended : Prop :=
  ∀ (w : Word) (rd : RegIdx) (imm : Int), decode w = .instr (.jal rd imm) →
    imm = sext 21 (w.toNat / 2 ^ 31 % 2 * 2 ^ 20 + w.toNat / 2 ^ 12 % 2 ^ 8 * 2 ^ 12 + w.toNat / 2 ^ 20 % 2 * 2 ^ 11
      + w.toNat / 2 ^ 21 % 2 ^ 10 * 2) ∧ imm % 2 = 0 ∧ -1048576 ≤ imm ∧ imm ≤ 1048574

/-- The Decoder against the opcode table (30_encoding.md R100; the numeric values are decision D2, the strict comparison
of selectors D8): a word decodes to a row's operation exactly when it matches the row, and a word that decodes to Unknown
matches none and is carried raw. -/
def Obligations.DecoderFollowsTheOpcodeTable : Prop :=
  (∀ w : Word, ∀ r ∈ opcodeRows, r.matchesWord w = true ↔ ∃ i, decode w = .instr i ∧ i.mnemonic = r.mnemonic) ∧
  (∀ w raw : Word, decode w = .unknown raw → raw = w ∧ ∀ r ∈ opcodeRows, r.matchesWord w = false) ∧
  ∀ (w : Word) (i : Instr), decode w = .instr i → ∃ r ∈ opcodeRows, r.mnemonic = i.mnemonic

/-- No word matches two rows of the opcode table (30_encoding.md R100, the spec's own derivation there; the values are
decision D2). -/
def Obligations.OpcodeRowsArePairwiseDisjoint : Prop :=
  opcodeRows.Pairwise fun r q => ∀ w : Word, ¬ (r.matchesWord w = true ∧ q.matchesWord w = true)

/-- Words that are no instruction (30_encoding.md R104, R105; 46_unknown.md R228, R229, R230; 41_r_type.md R157;
42_i_type.md R177; 43_s_type.md R192; 44_b_type.md R205): every word whose opcode is none of the seven of R101, among them
a word whose low two bits are not 11 and the words of the SYSTEM, MISC-MEM, AMO, `lui` and `auipc` opcodes, and under an
opcode in use every word with another funct3 or funct7. The numeric values are decision D2, the strict comparison D8. -/
def Obligations.OtherWordsDecodeToUnknown : Prop :=
  ∀ w : Word,
    (opcode w ∉ [0b0110011#7, 0b0010011#7, 0b0000011#7, 0b1100111#7, 0b0100011#7, 0b1100011#7, 0b1101111#7] →
      decode w = .unknown w) ∧
    (w.toNat % 4 ≠ 3 → decode w = .unknown w) ∧
    (opcode w = 0b1110011#7 ∨ opcode w = 0b0001111#7 ∨ opcode w = 0b0101111#7 ∨ opcode w = 0b0110111#7
      ∨ opcode w = 0b0010111#7 ∨ w = 0xFFFFFFFF#32 → decode w = .unknown w) ∧
    (opcode w = 0b0110011#7 ∧ (funct7 w ≠ 0#7 ∧ ¬ (funct7 w = 0b0100000#7 ∧ funct3 w = 0b000#3) ∨ funct3 w = 0b001#3
      ∨ funct3 w = 0b011#3 ∨ funct3 w = 0b100#3) → decode w = .unknown w) ∧
    (opcode w = 0b0010011#7 ∧ funct3 w ≠ 0b000#3 → decode w = .unknown w) ∧
    (opcode w = 0b0000011#7 ∧ funct3 w ≠ 0b010#3 → decode w = .unknown w) ∧
    (opcode w = 0b1100111#7 ∧ funct3 w ≠ 0b000#3 → decode w = .unknown w) ∧
    (opcode w = 0b0100011#7 ∧ funct3 w ≠ 0b010#3 → decode w = .unknown w) ∧
    (opcode w = 0b1100011#7 ∧ (funct3 w = 0b010#3 ∨ funct3 w = 0b011#3 ∨ 0b101#3 ≤ funct3 w) → decode w = .unknown w)

/-- The round trip (30_encoding.md R120; for B and J even displacements, 90_conflicts.md C4): decoding the encoded word of
a well-formed instruction gives it back, every operand at every value the encoding admits. -/
def Obligations.DecodeOfEncodeIsTheInstruction : Prop :=
  ∀ i : Instr, i.wellFormed = true → decode (encode i) = .instr i

/-- No bit of a word is ignored (30_encoding.md R87): what is decoded is well formed and encodes to the same word. -/
def Obligations.EncodeOfDecodeIsTheWord : Prop :=
  ∀ (w : Word) (i : Instr), decode w = .instr i → i.wellFormed = true ∧ encode i = w

/-- A few words written out from the spec's encodings (95_test_vectors.md D-5, D-9, D-20, D-31, D-42; the selector values
are decision D2). -/
def Obligations.WrittenOutWordsDecode : Prop :=
  decode 0x015558B3 = .instr (.srl 17 10 21) ∧ decode 0x80000093 = .instr (.addi 1 0 (-2048)) ∧
    decode 0x81FFA023 = .instr (.sw 31 31 (-2048)) ∧ decode 0x004190E3 = .instr (.bne 3 4 2048) ∧
    decode 0x800FF0EF = .instr (.jal 1 (-4096))

/-! ### The step -/

/-- A step runs the decoded instruction (40_step_cycle.md R130): where the core is not stopped and the word at the pc
decodes to `i`, the step is `exec i`, with nothing around it. -/
def Obligations.StepRunsTheDecodedInstruction : Prop :=
  ∀ (s : State) (w : Word) (i : Instr), s.stopped = false → s.pc.toNat % 4 = 0 → s.prog[s.pc.toNat / 4]? = some w →
    decode w = .instr i → step s = exec i s

/-- The state the host builds to run one word (the model's own interface; notes/assumptions/5.md): its next step executes
what the word decodes to. -/
def Obligations.PlacedWordIsTheNextOneRun : Prop :=
  ∀ (s : State) (w : Word) (i : Instr), decode w = .instr i →
    step (s.withFetchWord 32 w.toNat) = exec i (s.withFetchWord 32 w.toNat)

/-- Unknown (46_unknown.md R225; 60_exceptions.md R242): a step stops with `UNRECOGNIZED(w)`, no state changing, exactly
when the word at the pc of a core that is not stopped matches no row of the opcode table, and it reports that word. -/
def Obligations.StepStopsOnUnknownWordsExactly : Prop :=
  ∀ (s : State) (w : Word), step s = .fault (.unrecognized w) ↔
    s.stopped = false ∧ s.pc.toNat % 4 = 0 ∧ s.prog[s.pc.toNat / 4]? = some w ∧
      ∀ r ∈ opcodeRows, r.matchesWord w = false

/-- `FETCH_FAULT` (60_exceptions.md R245; the spec's decision D7): exactly where the pc of a core that is not stopped is
not a multiple of 4 or is beyond `4*N`. -/
def Obligations.StepStopsWhereNoInstructionStands : Prop :=
  ∀ (s : State) (p : Word), step s = .fault (.fetchFault p) ↔
    s.stopped = false ∧ p = s.pc ∧ (s.pc.toNat % 4 ≠ 0 ∨ s.pc.toNat > 4 * s.prog.length)

/-- `HALT_END` (60_exceptions.md R244; the spec's decision D6): a step at `pc = 4*N` ends the run and changes nothing but
the status and the latch, and no other step reports `HALT_END`. -/
def Obligations.RunEndsNormallyAtTheProgramEnd : Prop :=
  (∀ s : State, s.stopped = false → s.pc.toNat = 4 * s.prog.length →
    step s = .next { s with status := some .haltEnd, stopped := true }) ∧
  ∀ s t : State, step s = .next t → t.status = some .haltEnd → s.pc.toNat = 4 * s.prog.length

/-- A stopped core takes no step until reset (10_state.md R36; that the status is no register is decision D13), and reset
clears the latch (70_reset_and_hazards.md R270; a later reset is decision D18). -/
def Obligations.StoppedCoreTakesNoStepUntilReset : Prop :=
  (∀ s : State, step s = .fault .stopped ↔ s.stopped = true) ∧
  (∀ s t : State, s.stopped = true → Reaches s t → t = s) ∧ ∀ s : State, (applyReset s).stopped = false

/-- A recognized instruction always completes (40_step_cycle.md R139): it answers a next state, with status `OK`, or
`SELF_JUMP` for the one case of `jalr` (42_i_type.md R176; the width of its comparison is decision D17). -/
def Obligations.RecognizedInstructionsAlwaysComplete : Prop :=
  ∀ (i : Instr) (s : State), ∃ t, exec i s = .next t ∧
    (t.status = some .ok ∨ t.status = some .selfJump) ∧
    (t.status = some .selfJump ↔
      ∃ rd rs1 imm, i = .jalr rd rs1 imm ∧ u32 (xs s rs1 + imm) / 2 * 2 = s.pc.toNat)

/-- The next-pc table (10_state.md R27), with every update reduced modulo 2^32 (R28, decision D3). -/
def Obligations.NextPcFollowsTheTable : Prop :=
  ∀ (i : Instr) (s t : State), exec i s = .next t → t.pc.toNat = u32 (nextPcTable s i)

/-- No step writes the program, or what else the run is given (10_state.md R34; 20_memory.md R66, decision D10): stores
never reach instruction fetch. -/
def Obligations.NoStepWritesTheProgram : Prop :=
  ∀ s t : State, step s = .next t → KeepsRun s t ∧ ∀ p, iFetch t.prog p = iFetch s.prog p

/-! ### Reset and the invariant -/

/-- The state after reset (10_state.md R37), for every program, image and policy a run is given; the zero of the 29
registers other than `x0` and `x2` is the spec's decision D14. -/
def Obligations.ResetGivesTheTabledValues : Prop :=
  ∀ (prog : List Word) (image : Memory) (policy : SelfJumpPolicy),
    let s := State.resetWith prog image policy
    xs s 0 = 0 ∧ xs s 2 = 380 ∧ (∀ r, r ≠ 2 → xs s r = 0) ∧ s.pc = 0 ∧ (∀ a, readByte s.mem a = readByte image a) ∧
      s.prog = prog ∧ s.selfJumpPolicy = policy ∧ s.status = none ∧ s.stopped = false

/-- Reset may be applied to any state, running or stopped, and gives the fresh state of the same run: memory reloaded
from MEM_INIT (70_reset_and_hazards.md R270; decision D18). -/
def Obligations.ResetStartsANewRun : Prop :=
  ∀ s t : State, Reaches s t → applyReset t = applyReset s ∧ (applyReset t).mem = s.memInit ∧ xs (applyReset t) 2 = 380

/-- The invariant holds of the reset state; it names no register the log chose a value for. -/
def Obligations.InvariantHoldsAtReset : Prop := Inv State.reset

/-- Every step keeps the invariant: memory stays canonical, the hard-wired register's slot stays 0, the pc stays even
(10_state.md R29, the spec's own derivation), the latch agrees with the status (R36). -/
def Obligations.EveryStepKeepsTheInvariant : Prop :=
  ∀ s t : State, Inv s → step s = .next t → Inv t

/-- Every state a run reaches, of every program from every canonical image and under either policy, meets the invariant
and holds what the run was given. Its inductive case is `EveryStepKeepsTheInvariant`. -/
def Obligations.EveryReachedStateMeetsTheInvariant : Prop :=
  ∀ (prog : List Word) (image : Memory) (policy : SelfJumpPolicy) (t : State), image.wf →
    Reaches (State.resetWith prog image policy) t →
      Inv t ∧ t.prog = prog ∧ t.memInit = image ∧ t.selfJumpPolicy = policy
end

