-- ==== Sys2Proof/Laws/Decode.lean ====
section
/-! SUPPORT. The fields of a word and the words of the encoder, as arithmetic on the word's number: what a proof about
the Decoder and the encoder cites instead of unfolding a concatenation. -/

namespace Sys2Proof

/-! ### The fields of a word -/

theorem opcode_toNat (w : Word) : (opcode w).toNat = w.toNat % 2 ^ 7 := by
  simp [opcode, BitVec.extractLsb, BitVec.extractLsb'_toNat]

theorem funct3_toNat (w : Word) : (funct3 w).toNat = w.toNat / 2 ^ 12 % 2 ^ 3 := by
  simp [funct3, BitVec.extractLsb, BitVec.extractLsb'_toNat, Nat.shiftRight_eq_div_pow]

theorem funct7_toNat (w : Word) : (funct7 w).toNat = w.toNat / 2 ^ 25 % 2 ^ 7 := by
  simp [funct7, BitVec.extractLsb, BitVec.extractLsb'_toNat, Nat.shiftRight_eq_div_pow]

theorem rdField_val (w : Word) : (rdField w).val = w.toNat / 2 ^ 7 % 2 ^ 5 := by
  show (BitVec.extractLsb 11 7 w).toNat = _
  simp [BitVec.extractLsb, BitVec.extractLsb'_toNat, Nat.shiftRight_eq_div_pow]

theorem rs1Field_val (w : Word) : (rs1Field w).val = w.toNat / 2 ^ 15 % 2 ^ 5 := by
  show (BitVec.extractLsb 19 15 w).toNat = _
  simp [BitVec.extractLsb, BitVec.extractLsb'_toNat, Nat.shiftRight_eq_div_pow]

theorem rs2Field_val (w : Word) : (rs2Field w).val = w.toNat / 2 ^ 20 % 2 ^ 5 := by
  show (BitVec.extractLsb 24 20 w).toNat = _
  simp [BitVec.extractLsb, BitVec.extractLsb'_toNat, Nat.shiftRight_eq_div_pow]

/-- Concatenation as arithmetic: the left part above the right one's width. -/
theorem append_toNat {n m : Nat} (a : BitVec n) (b : BitVec m) : (a ++ b).toNat = a.toNat * 2 ^ m + b.toNat := by
  rw [BitVec.toNat_append, ← Nat.shiftLeft_add_eq_or_of_lt b.isLt, Nat.shiftLeft_eq]

theorem slice_toNat {n : Nat} (hi lo : Nat) (b : BitVec n) :
    (b.extractLsb hi lo).toNat = b.toNat / 2 ^ lo % 2 ^ (hi - lo + 1) := by
  simp [BitVec.extractLsb, BitVec.extractLsb'_toNat, Nat.shiftRight_eq_div_pow]

theorem immIBits_toNat (w : Word) : (immIBits w).toNat = w.toNat / 2 ^ 20 % 2 ^ 12 := slice_toNat 31 20 w

theorem immSBits_toNat (w : Word) :
    (immSBits w).toNat = w.toNat / 2 ^ 25 % 2 ^ 7 * 2 ^ 5 + w.toNat / 2 ^ 7 % 2 ^ 5 := by
  show (BitVec.extractLsb 31 25 w ++ BitVec.extractLsb 11 7 w).toNat = _
  simp only [append_toNat, slice_toNat]

theorem immBBits_toNat (w : Word) :
    (immBBits w).toNat = w.toNat / 2 ^ 31 % 2 * 2 ^ 12 + w.toNat / 2 ^ 7 % 2 * 2 ^ 11
      + w.toNat / 2 ^ 25 % 2 ^ 6 * 2 ^ 5 + w.toNat / 2 ^ 8 % 2 ^ 4 * 2 := by
  show (BitVec.extractLsb 31 31 w ++ BitVec.extractLsb 7 7 w ++ BitVec.extractLsb 30 25 w
    ++ BitVec.extractLsb 11 8 w ++ 0#1).toNat = _
  simp only [append_toNat, slice_toNat, BitVec.toNat_ofNat]
  omega

theorem immJBits_toNat (w : Word) :
    (immJBits w).toNat = w.toNat / 2 ^ 31 % 2 * 2 ^ 20 + w.toNat / 2 ^ 12 % 2 ^ 8 * 2 ^ 12
      + w.toNat / 2 ^ 20 % 2 * 2 ^ 11 + w.toNat / 2 ^ 21 % 2 ^ 10 * 2 := by
  show (BitVec.extractLsb 31 31 w ++ BitVec.extractLsb 19 12 w ++ BitVec.extractLsb 20 20 w
    ++ BitVec.extractLsb 30 21 w ++ 0#1).toNat = _
  simp only [append_toNat, slice_toNat, BitVec.toNat_ofNat]
  omega

/-! ### The pieces of an immediate as the word holds them -/

theorem immSBits_pieces (w : Word) :
    (immSBits w).toNat / 2 ^ 5 % 2 ^ 7 = w.toNat / 2 ^ 25 % 2 ^ 7 ∧ (immSBits w).toNat % 2 ^ 5 = w.toNat / 2 ^ 7 % 2 ^ 5 := by
  have h1 : w.toNat / 2 ^ 25 % 2 ^ 7 < 2 ^ 7 := Nat.mod_lt _ (by decide)
  have h2 : w.toNat / 2 ^ 7 % 2 ^ 5 < 2 ^ 5 := Nat.mod_lt _ (by decide)
  rw [immSBits_toNat]
  generalize w.toNat / 2 ^ 25 % 2 ^ 7 = a at *
  generalize w.toNat / 2 ^ 7 % 2 ^ 5 = b at *
  omega

theorem immBBits_pieces (w : Word) :
    (immBBits w).toNat / 2 ^ 12 % 2 = w.toNat / 2 ^ 31 % 2 ∧ (immBBits w).toNat / 2 ^ 11 % 2 = w.toNat / 2 ^ 7 % 2
      ∧ (immBBits w).toNat / 2 ^ 5 % 2 ^ 6 = w.toNat / 2 ^ 25 % 2 ^ 6
      ∧ (immBBits w).toNat / 2 % 2 ^ 4 = w.toNat / 2 ^ 8 % 2 ^ 4 ∧ (immBBits w).toNat % 2 = 0 := by
  have h1 : w.toNat / 2 ^ 31 % 2 < 2 := Nat.mod_lt _ (by decide)
  have h2 : w.toNat / 2 ^ 7 % 2 < 2 := Nat.mod_lt _ (by decide)
  have h3 : w.toNat / 2 ^ 25 % 2 ^ 6 < 2 ^ 6 := Nat.mod_lt _ (by decide)
  have h4 : w.toNat / 2 ^ 8 % 2 ^ 4 < 2 ^ 4 := Nat.mod_lt _ (by decide)
  rw [immBBits_toNat]
  generalize w.toNat / 2 ^ 31 % 2 = a at *
  generalize w.toNat / 2 ^ 7 % 2 = b at *
  generalize w.toNat / 2 ^ 25 % 2 ^ 6 = c at *
  generalize w.toNat / 2 ^ 8 % 2 ^ 4 = d at *
  omega

theorem immJBits_pieces (w : Word) :
    (immJBits w).toNat / 2 ^ 20 % 2 = w.toNat / 2 ^ 31 % 2
      ∧ (immJBits w).toNat / 2 ^ 12 % 2 ^ 8 = w.toNat / 2 ^ 12 % 2 ^ 8
      ∧ (immJBits w).toNat / 2 ^ 11 % 2 = w.toNat / 2 ^ 20 % 2
      ∧ (immJBits w).toNat / 2 % 2 ^ 10 = w.toNat / 2 ^ 21 % 2 ^ 10 ∧ (immJBits w).toNat % 2 = 0 := by
  have h1 : w.toNat / 2 ^ 31 % 2 < 2 := Nat.mod_lt _ (by decide)
  have h2 : w.toNat / 2 ^ 12 % 2 ^ 8 < 2 ^ 8 := Nat.mod_lt _ (by decide)
  have h3 : w.toNat / 2 ^ 20 % 2 < 2 := Nat.mod_lt _ (by decide)
  have h4 : w.toNat / 2 ^ 21 % 2 ^ 10 < 2 ^ 10 := Nat.mod_lt _ (by decide)
  rw [immJBits_toNat]
  generalize w.toNat / 2 ^ 31 % 2 = a at *
  generalize w.toNat / 2 ^ 12 % 2 ^ 8 = b at *
  generalize w.toNat / 2 ^ 20 % 2 = c at *
  generalize w.toNat / 2 ^ 21 % 2 ^ 10 = d at *
  omega

/-! ### The words of the encoder -/

theorem encodeR_toNat (f7 : BitVec 7) (rs2 rs1 : RegIdx) (f3 : BitVec 3) (rd : RegIdx) (op : BitVec 7) :
    (encodeR f7 rs2 rs1 f3 rd op).toNat = f7.toNat * 2 ^ 25 + rs2.val * 2 ^ 20 + rs1.val * 2 ^ 15 + f3.toNat * 2 ^ 12
      + rd.val * 2 ^ 7 + op.toNat := by
  show (f7 ++ BitVec.ofFin (w := 5) rs2 ++ BitVec.ofFin (w := 5) rs1 ++ f3 ++ BitVec.ofFin (w := 5) rd ++ op).toNat = _
  simp only [append_toNat, BitVec.toNat_ofFin]
  omega

theorem encodeI_toNat (imm : BitVec 12) (rs1 : RegIdx) (f3 : BitVec 3) (rd : RegIdx) (op : BitVec 7) :
    (encodeI imm rs1 f3 rd op).toNat
      = imm.toNat * 2 ^ 20 + rs1.val * 2 ^ 15 + f3.toNat * 2 ^ 12 + rd.val * 2 ^ 7 + op.toNat := by
  show (imm ++ BitVec.ofFin (w := 5) rs1 ++ f3 ++ BitVec.ofFin (w := 5) rd ++ op).toNat = _
  simp only [append_toNat, BitVec.toNat_ofFin]
  omega

theorem encodeS_toNat (imm : BitVec 12) (rs2 rs1 : RegIdx) (f3 : BitVec 3) (op : BitVec 7) :
    (encodeS imm rs2 rs1 f3 op).toNat = imm.toNat / 2 ^ 5 % 2 ^ 7 * 2 ^ 25 + rs2.val * 2 ^ 20 + rs1.val * 2 ^ 15
      + f3.toNat * 2 ^ 12 + imm.toNat % 2 ^ 5 * 2 ^ 7 + op.toNat := by
  show (imm.extractLsb 11 5 ++ BitVec.ofFin (w := 5) rs2 ++ BitVec.ofFin (w := 5) rs1 ++ f3 ++ imm.extractLsb 4 0
    ++ op).toNat = _
  simp only [append_toNat, slice_toNat, BitVec.toNat_ofFin]
  omega

theorem encodeB_toNat (imm : BitVec 13) (rs2 rs1 : RegIdx) (f3 : BitVec 3) (op : BitVec 7) :
    (encodeB imm rs2 rs1 f3 op).toNat = imm.toNat / 2 ^ 12 % 2 * 2 ^ 31 + imm.toNat / 2 ^ 5 % 2 ^ 6 * 2 ^ 25
      + rs2.val * 2 ^ 20 + rs1.val * 2 ^ 15 + f3.toNat * 2 ^ 12 + imm.toNat / 2 % 2 ^ 4 * 2 ^ 8
      + imm.toNat / 2 ^ 11 % 2 * 2 ^ 7 + op.toNat := by
  show (imm.extractLsb 12 12 ++ imm.extractLsb 10 5 ++ BitVec.ofFin (w := 5) rs2 ++ BitVec.ofFin (w := 5) rs1 ++ f3
    ++ imm.extractLsb 4 1 ++ imm.extractLsb 11 11 ++ op).toNat = _
  simp only [append_toNat, slice_toNat, BitVec.toNat_ofFin]
  omega

theorem encodeJ_toNat (imm : BitVec 21) (rd : RegIdx) (op : BitVec 7) :
    (encodeJ imm rd op).toNat = imm.toNat / 2 ^ 20 % 2 * 2 ^ 31 + imm.toNat / 2 % 2 ^ 10 * 2 ^ 21
      + imm.toNat / 2 ^ 11 % 2 * 2 ^ 20 + imm.toNat / 2 ^ 12 % 2 ^ 8 * 2 ^ 12 + rd.val * 2 ^ 7 + op.toNat := by
  show (imm.extractLsb 20 20 ++ imm.extractLsb 10 1 ++ imm.extractLsb 11 11 ++ imm.extractLsb 19 12
    ++ BitVec.ofFin (w := 5) rd ++ op).toNat = _
  simp only [append_toNat, slice_toNat, BitVec.toNat_ofFin]
  omega

/-! ### The fields of an encoded word -/

theorem fields_encodeR (f7 : BitVec 7) (rs2 rs1 : RegIdx) (f3 : BitVec 3) (rd : RegIdx) (op : BitVec 7) :
    opcode (encodeR f7 rs2 rs1 f3 rd op) = op ∧ funct3 (encodeR f7 rs2 rs1 f3 rd op) = f3
      ∧ funct7 (encodeR f7 rs2 rs1 f3 rd op) = f7 ∧ rdField (encodeR f7 rs2 rs1 f3 rd op) = rd
      ∧ rs1Field (encodeR f7 rs2 rs1 f3 rd op) = rs1 ∧ rs2Field (encodeR f7 rs2 rs1 f3 rd op) = rs2 := by
  have h := encodeR_toNat f7 rs2 rs1 f3 rd op
  refine ⟨BitVec.eq_of_toNat_eq ?_, BitVec.eq_of_toNat_eq ?_, BitVec.eq_of_toNat_eq ?_, Fin.ext ?_, Fin.ext ?_,
    Fin.ext ?_⟩ <;>
    simp only [opcode_toNat, funct3_toNat, funct7_toNat, rdField_val, rs1Field_val, rs2Field_val, h] <;> omega

theorem fields_encodeI (imm : BitVec 12) (rs1 : RegIdx) (f3 : BitVec 3) (rd : RegIdx) (op : BitVec 7) :
    opcode (encodeI imm rs1 f3 rd op) = op ∧ funct3 (encodeI imm rs1 f3 rd op) = f3
      ∧ rdField (encodeI imm rs1 f3 rd op) = rd ∧ rs1Field (encodeI imm rs1 f3 rd op) = rs1
      ∧ immIBits (encodeI imm rs1 f3 rd op) = imm := by
  have h := encodeI_toNat imm rs1 f3 rd op
  refine ⟨BitVec.eq_of_toNat_eq ?_, BitVec.eq_of_toNat_eq ?_, Fin.ext ?_, Fin.ext ?_, BitVec.eq_of_toNat_eq ?_⟩ <;>
    simp only [opcode_toNat, funct3_toNat, rdField_val, rs1Field_val, immIBits_toNat, h] <;> omega

theorem fields_encodeS (imm : BitVec 12) (rs2 rs1 : RegIdx) (f3 : BitVec 3) (op : BitVec 7) :
    opcode (encodeS imm rs2 rs1 f3 op) = op ∧ funct3 (encodeS imm rs2 rs1 f3 op) = f3
      ∧ rs1Field (encodeS imm rs2 rs1 f3 op) = rs1 ∧ rs2Field (encodeS imm rs2 rs1 f3 op) = rs2
      ∧ immSBits (encodeS imm rs2 rs1 f3 op) = imm := by
  obtain ⟨hi, lo, hhi, hlo, e⟩ : ∃ hi lo, hi < 2 ^ 7 ∧ lo < 2 ^ 5 ∧ imm.toNat = hi * 2 ^ 5 + lo :=
    ⟨imm.toNat / 2 ^ 5, imm.toNat % 2 ^ 5, by omega, by omega, by omega⟩
  have h : (encodeS imm rs2 rs1 f3 op).toNat = hi * 2 ^ 25 + rs2.val * 2 ^ 20 + rs1.val * 2 ^ 15 + f3.toNat * 2 ^ 12
      + lo * 2 ^ 7 + op.toNat := by
    have h1 : imm.toNat / 2 ^ 5 % 2 ^ 7 = hi := by omega
    have h2 : imm.toNat % 2 ^ 5 = lo := by omega
    rw [encodeS_toNat, h1, h2]
  refine ⟨BitVec.eq_of_toNat_eq ?_, BitVec.eq_of_toNat_eq ?_, Fin.ext ?_, Fin.ext ?_, BitVec.eq_of_toNat_eq ?_⟩ <;>
    simp only [opcode_toNat, funct3_toNat, rs1Field_val, rs2Field_val, immSBits_toNat, h, e] <;> clear h e <;> omega

/-- The B format keeps every bit of the immediate but bit 0. -/
theorem fields_encodeB (imm : BitVec 13) (rs2 rs1 : RegIdx) (f3 : BitVec 3) (op : BitVec 7) :
    opcode (encodeB imm rs2 rs1 f3 op) = op ∧ funct3 (encodeB imm rs2 rs1 f3 op) = f3
      ∧ rs1Field (encodeB imm rs2 rs1 f3 op) = rs1 ∧ rs2Field (encodeB imm rs2 rs1 f3 op) = rs2
      ∧ (immBBits (encodeB imm rs2 rs1 f3 op)).toNat = imm.toNat / 2 * 2 := by
  obtain ⟨b, c, d, f, g, hb, hc, hd, hf, hg, e⟩ : ∃ b c d f g, b < 2 ∧ c < 2 ∧ d < 2 ^ 6 ∧ f < 2 ^ 4 ∧ g < 2
      ∧ imm.toNat = b * 2 ^ 12 + c * 2 ^ 11 + d * 2 ^ 5 + f * 2 + g :=
    ⟨imm.toNat / 2 ^ 12, imm.toNat / 2 ^ 11 % 2, imm.toNat / 2 ^ 5 % 2 ^ 6, imm.toNat / 2 % 2 ^ 4, imm.toNat % 2,
      by omega, by omega, by omega, by omega, by omega, by omega⟩
  have h : (encodeB imm rs2 rs1 f3 op).toNat = b * 2 ^ 31 + d * 2 ^ 25 + rs2.val * 2 ^ 20 + rs1.val * 2 ^ 15
      + f3.toNat * 2 ^ 12 + f * 2 ^ 8 + c * 2 ^ 7 + op.toNat := by
    have h1 : imm.toNat / 2 ^ 12 % 2 = b := by omega
    have h2 : imm.toNat / 2 ^ 5 % 2 ^ 6 = d := by omega
    have h3 : imm.toNat / 2 % 2 ^ 4 = f := by omega
    have h4 : imm.toNat / 2 ^ 11 % 2 = c := by omega
    rw [encodeB_toNat, h1, h2, h3, h4]
  refine ⟨BitVec.eq_of_toNat_eq ?_, BitVec.eq_of_toNat_eq ?_, Fin.ext ?_, Fin.ext ?_, ?_⟩ <;>
    simp only [opcode_toNat, funct3_toNat, rs1Field_val, rs2Field_val, immBBits_toNat, h, e] <;> clear h e
  case refine_5 =>
    obtain ⟨n, hn⟩ : ∃ n, n = b * 2 ^ 31 + d * 2 ^ 25 + rs2.val * 2 ^ 20 + rs1.val * 2 ^ 15 + f3.toNat * 2 ^ 12
      + f * 2 ^ 8 + c * 2 ^ 7 + op.toNat := ⟨_, rfl⟩
    rw [← hn]
    have h1 : n / 2 ^ 31 % 2 = b := by omega
    have h2 : n / 2 ^ 25 % 2 ^ 6 = d := by omega
    have h3 : n / 2 ^ 8 % 2 ^ 4 = f := by omega
    have h4 : n / 2 ^ 7 % 2 = c := by omega
    rw [h1, h2, h3, h4]; clear h1 h2 h3 h4 hn; omega
  all_goals omega

/-- The J format keeps every bit of the immediate but bit 0. -/
theorem fields_encodeJ (imm : BitVec 21) (rd : RegIdx) (op : BitVec 7) :
    opcode (encodeJ imm rd op) = op ∧ rdField (encodeJ imm rd op) = rd
      ∧ (immJBits (encodeJ imm rd op)).toNat = imm.toNat / 2 * 2 := by
  obtain ⟨b, c, d, f, g, hb, hc, hd, hf, hg, e⟩ : ∃ b c d f g, b < 2 ∧ c < 2 ^ 8 ∧ d < 2 ∧ f < 2 ^ 10 ∧ g < 2
      ∧ imm.toNat = b * 2 ^ 20 + c * 2 ^ 12 + d * 2 ^ 11 + f * 2 + g :=
    ⟨imm.toNat / 2 ^ 20, imm.toNat / 2 ^ 12 % 2 ^ 8, imm.toNat / 2 ^ 11 % 2, imm.toNat / 2 % 2 ^ 10, imm.toNat % 2,
      by omega, by omega, by omega, by omega, by omega, by omega⟩
  have h : (encodeJ imm rd op).toNat = b * 2 ^ 31 + f * 2 ^ 21 + d * 2 ^ 20 + c * 2 ^ 12 + rd.val * 2 ^ 7
      + op.toNat := by
    have h1 : imm.toNat / 2 ^ 20 % 2 = b := by omega
    have h2 : imm.toNat / 2 % 2 ^ 10 = f := by omega
    have h3 : imm.toNat / 2 ^ 11 % 2 = d := by omega
    have h4 : imm.toNat / 2 ^ 12 % 2 ^ 8 = c := by omega
    rw [encodeJ_toNat, h1, h2, h3, h4]
  refine ⟨BitVec.eq_of_toNat_eq ?_, Fin.ext ?_, ?_⟩ <;>
    simp only [opcode_toNat, rdField_val, immJBits_toNat, h, e] <;> clear h e
  case refine_3 =>
    obtain ⟨n, hn⟩ : ∃ n, n = b * 2 ^ 31 + f * 2 ^ 21 + d * 2 ^ 20 + c * 2 ^ 12 + rd.val * 2 ^ 7 + op.toNat := ⟨_, rfl⟩
    rw [← hn]
    have h1 : n / 2 ^ 31 % 2 = b := by omega
    have h2 : n / 2 ^ 12 % 2 ^ 8 = c := by omega
    have h3 : n / 2 ^ 20 % 2 = d := by omega
    have h4 : n / 2 ^ 21 % 2 ^ 10 = f := by omega
    rw [h1, h2, h3, h4]; clear h1 h2 h3 h4 hn; omega
  all_goals omega

/-! ### The masks of the table -/

/-- A word under the R mask is the number made of its opcode, funct3 and funct7. -/
theorem and_mask_R (w : Word) : (w &&& 0xFE00707F#32).toNat
    = (funct7 w).toNat * 2 ^ 25 + (funct3 w).toNat * 2 ^ 12 + (opcode w).toNat := by
  have h : (w &&& 0xFE00707F#32).toNat
      = (w.extractLsb 31 25 ++ 0#10 ++ w.extractLsb 14 12 ++ 0#5 ++ w.extractLsb 6 0).toNat := by
    apply Nat.eq_of_testBit_eq
    intro i
    rw [BitVec.testBit_toNat, BitVec.testBit_toNat]
    by_cases hi : i < 32
    · simp only [BitVec.getLsbD_append, BitVec.getLsbD_extractLsb, BitVec.getLsbD_and]
      interval_cases i <;> simp
    · rw [BitVec.getLsbD_of_ge _ _ (by omega), BitVec.getLsbD_of_ge _ _ (by omega)]
  simp only [append_toNat, slice_toNat, BitVec.toNat_ofNat] at h
  simp only [opcode_toNat, funct3_toNat, funct7_toNat]
  omega

/-- A word under the I, S and B mask is the number made of its opcode and funct3. -/
theorem and_mask_I (w : Word) : (w &&& 0x0000707F#32).toNat = (funct3 w).toNat * 2 ^ 12 + (opcode w).toNat := by
  have h : (w &&& 0x0000707F#32).toNat = (0#17 ++ w.extractLsb 14 12 ++ 0#5 ++ w.extractLsb 6 0).toNat := by
    apply Nat.eq_of_testBit_eq
    intro i
    rw [BitVec.testBit_toNat, BitVec.testBit_toNat]
    by_cases hi : i < 32
    · simp only [BitVec.getLsbD_append, BitVec.getLsbD_extractLsb, BitVec.getLsbD_and]
      interval_cases i <;> simp
    · rw [BitVec.getLsbD_of_ge _ _ (by omega), BitVec.getLsbD_of_ge _ _ (by omega)]
  simp only [append_toNat, slice_toNat, BitVec.toNat_ofNat] at h
  simp only [opcode_toNat, funct3_toNat]
  omega

/-- A word under the J mask is its opcode. -/
theorem and_mask_J (w : Word) : (w &&& 0x0000007F#32).toNat = (opcode w).toNat := by
  rw [BitVec.toNat_and, opcode_toNat]
  exact Nat.and_two_pow_sub_one_eq_mod w.toNat 7

/-! ### Which words match a row -/

/-- A word matches a row exactly when it has the row's value under the row's mask, as numbers. -/
theorem matchesWord_iff (r : OpcodeRow) (w : Word) : r.matchesWord w = true ↔ (w &&& r.mask).toNat = r.value.toNat := by
  unfold OpcodeRow.matchesWord
  rw [beq_iff_eq]
  exact ⟨fun h => by rw [h], BitVec.eq_of_toNat_eq⟩

/-- A row with the R mask is matched by the words with its opcode, funct3 and funct7. -/
theorem matchesWord_R (n : String) (f7 : BitVec 7) (f3 : BitVec 3) (op : BitVec 7) (v w : Word)
    (hv : v.toNat = f7.toNat * 2 ^ 25 + f3.toNat * 2 ^ 12 + op.toNat) :
    OpcodeRow.matchesWord ⟨n, v, 0xFE00707F⟩ w = true ↔ opcode w = op ∧ funct3 w = f3 ∧ funct7 w = f7 := by
  rw [matchesWord_iff]
  show (w &&& 0xFE00707F#32).toNat = v.toNat ↔ _
  rw [and_mask_R, hv, ← BitVec.toNat_inj, ← BitVec.toNat_inj, ← BitVec.toNat_inj]
  omega

/-- A row with the I, S and B mask is matched by the words with its opcode and funct3. -/
theorem matchesWord_I (n : String) (f3 : BitVec 3) (op : BitVec 7) (v w : Word)
    (hv : v.toNat = f3.toNat * 2 ^ 12 + op.toNat) :
    OpcodeRow.matchesWord ⟨n, v, 0x0000707F⟩ w = true ↔ opcode w = op ∧ funct3 w = f3 := by
  rw [matchesWord_iff]
  show (w &&& 0x0000707F#32).toNat = v.toNat ↔ _
  rw [and_mask_I, hv, ← BitVec.toNat_inj, ← BitVec.toNat_inj]
  omega

/-- A row with the J mask is matched by the words with its opcode. -/
theorem matchesWord_J (n : String) (op : BitVec 7) (v w : Word) (hv : v.toNat = op.toNat) :
    OpcodeRow.matchesWord ⟨n, v, 0x0000007F⟩ w = true ↔ opcode w = op := by
  rw [matchesWord_iff]
  show (w &&& 0x0000007F#32).toNat = v.toNat ↔ _
  rw [and_mask_J, hv, ← BitVec.toNat_inj]

/-! ### What the Decoder reads -/

/-- The selectors and operands of each instruction the Decoder reads (30_encoding.md R100, R101). -/
inductive Reading (w : Word) : Instr → Prop where
  | add (ho : opcode w = 0b0110011#7) (h3 : funct3 w = 0b000#3) (h7 : funct7 w = 0b0000000#7) :
      Reading w (.add (rdField w) (rs1Field w) (rs2Field w))
  | sub (ho : opcode w = 0b0110011#7) (h3 : funct3 w = 0b000#3) (h7 : funct7 w = 0b0100000#7) :
      Reading w (.sub (rdField w) (rs1Field w) (rs2Field w))
  | srl (ho : opcode w = 0b0110011#7) (h3 : funct3 w = 0b101#3) (h7 : funct7 w = 0b0000000#7) :
      Reading w (.srl (rdField w) (rs1Field w) (rs2Field w))
  | and (ho : opcode w = 0b0110011#7) (h3 : funct3 w = 0b111#3) (h7 : funct7 w = 0b0000000#7) :
      Reading w (.and (rdField w) (rs1Field w) (rs2Field w))
  | or (ho : opcode w = 0b0110011#7) (h3 : funct3 w = 0b110#3) (h7 : funct7 w = 0b0000000#7) :
      Reading w (.or (rdField w) (rs1Field w) (rs2Field w))
  | slt (ho : opcode w = 0b0110011#7) (h3 : funct3 w = 0b010#3) (h7 : funct7 w = 0b0000000#7) :
      Reading w (.slt (rdField w) (rs1Field w) (rs2Field w))
  | addi (ho : opcode w = 0b0010011#7) (h3 : funct3 w = 0b000#3) : Reading w (.addi (rdField w) (rs1Field w) (immI w))
  | lw (ho : opcode w = 0b0000011#7) (h3 : funct3 w = 0b010#3) : Reading w (.lw (rdField w) (rs1Field w) (immI w))
  | jalr (ho : opcode w = 0b1100111#7) (h3 : funct3 w = 0b000#3) : Reading w (.jalr (rdField w) (rs1Field w) (immI w))
  | sw (ho : opcode w = 0b0100011#7) (h3 : funct3 w = 0b010#3) : Reading w (.sw (rs1Field w) (rs2Field w) (immS w))
  | beq (ho : opcode w = 0b1100011#7) (h3 : funct3 w = 0b000#3) : Reading w (.beq (rs1Field w) (rs2Field w) (immB w))
  | bne (ho : opcode w = 0b1100011#7) (h3 : funct3 w = 0b001#3) : Reading w (.bne (rs1Field w) (rs2Field w) (immB w))
  | blt (ho : opcode w = 0b1100011#7) (h3 : funct3 w = 0b100#3) : Reading w (.blt (rs1Field w) (rs2Field w) (immB w))
  | jal (ho : opcode w = 0b1101111#7) : Reading w (.jal (rdField w) (immJ w))

/-- Everything the Decoder can read as an instruction. -/
theorem reading_of_decode {w : Word} {i : Instr} (h : decode w = .instr i) : Reading w i := by
  unfold decode at h
  split at h
  · unfold decodeRType at h
    repeat' split at h
    all_goals cases h
    · exact .add ‹_› (by tauto) (by tauto)
    · exact .sub ‹_› (by tauto) (by tauto)
    · exact .srl ‹_› (by tauto) (by tauto)
    · exact .and ‹_› (by tauto) (by tauto)
    · exact .or ‹_› (by tauto) (by tauto)
    · exact .slt ‹_› (by tauto) (by tauto)
  · unfold decodeBType at h
    repeat' split at h
    all_goals cases h
    all_goals constructor <;> assumption

theorem decode_of_reading {w : Word} {i : Instr} (h : Reading w i) : decode w = .instr i := by
  cases h <;> simp [decode, decodeRType, decodeBType, *]

theorem decode_unknown_raw {w raw : Word} (h : decode w = .unknown raw) : raw = w := by
  unfold decode decodeRType decodeBType at h
  repeat' split at h
  all_goals cases h
  all_goals rfl

/-- The Decoder answers an instruction of the table or carries the raw word. -/
theorem decode_total (w : Word) : (∃ i, decode w = .instr i) ∨ decode w = .unknown w := by
  cases h : decode w with
  | instr i => exact .inl ⟨i, rfl⟩
  | unknown raw => exact .inr (by rw [decode_unknown_raw h])

theorem unknown_of_no_reading {w : Word} (h : ∀ i, ¬ Reading w i) : decode w = .unknown w :=
  (decode_total w).resolve_left fun ⟨i, hi⟩ => h i (reading_of_decode hi)

@[simp] theorem tableWord_toNat (w : Word) : tableWord 32 w.toNat = w := by
  refine BitVec.eq_of_toNat_eq ?_
  have := w.isLt
  simp only [tableWord, BitVec.toNat_ofNat]
  omega

end Sys2Proof
end

