-- ==== Sys2Proof/Laws/State.lean ====
section
/-! SUPPORT. One lemma per field per update of the state, and the register file's read-after-write laws. -/

namespace Sys2Proof.Machine

/-! ### `setPc` -/

@[simp] theorem setPc_regs (s : State) (t : Int) : (setPc s t).regs = s.regs := rfl
@[simp] theorem setPc_pc (s : State) (t : Int) : (setPc s t).pc = toWord t := rfl
@[simp] theorem setPc_mem (s : State) (t : Int) : (setPc s t).mem = s.mem := rfl
@[simp] theorem setPc_prog (s : State) (t : Int) : (setPc s t).prog = s.prog := rfl
@[simp] theorem setPc_memInit (s : State) (t : Int) : (setPc s t).memInit = s.memInit := rfl
@[simp] theorem setPc_selfJumpPolicy (s : State) (t : Int) : (setPc s t).selfJumpPolicy = s.selfJumpPolicy := rfl
@[simp] theorem setPc_status (s : State) (t : Int) : (setPc s t).status = s.status := rfl
@[simp] theorem setPc_stopped (s : State) (t : Int) : (setPc s t).stopped = s.stopped := rfl

/-! ### `setMem` -/

@[simp] theorem setMem_regs (s : State) (m : Memory) : (setMem s m).regs = s.regs := rfl
@[simp] theorem setMem_pc (s : State) (m : Memory) : (setMem s m).pc = s.pc := rfl
@[simp] theorem setMem_mem (s : State) (m : Memory) : (setMem s m).mem = m := rfl
@[simp] theorem setMem_prog (s : State) (m : Memory) : (setMem s m).prog = s.prog := rfl
@[simp] theorem setMem_memInit (s : State) (m : Memory) : (setMem s m).memInit = s.memInit := rfl
@[simp] theorem setMem_selfJumpPolicy (s : State) (m : Memory) : (setMem s m).selfJumpPolicy = s.selfJumpPolicy := rfl
@[simp] theorem setMem_status (s : State) (m : Memory) : (setMem s m).status = s.status := rfl
@[simp] theorem setMem_stopped (s : State) (m : Memory) : (setMem s m).stopped = s.stopped := rfl

/-! ### `setStatus` -/

@[simp] theorem setStatus_regs (s : State) (st : Status) : (setStatus s st).regs = s.regs := rfl
@[simp] theorem setStatus_pc (s : State) (st : Status) : (setStatus s st).pc = s.pc := rfl
@[simp] theorem setStatus_mem (s : State) (st : Status) : (setStatus s st).mem = s.mem := rfl
@[simp] theorem setStatus_prog (s : State) (st : Status) : (setStatus s st).prog = s.prog := rfl
@[simp] theorem setStatus_memInit (s : State) (st : Status) : (setStatus s st).memInit = s.memInit := rfl
@[simp] theorem setStatus_selfJumpPolicy (s : State) (st : Status) : (setStatus s st).selfJumpPolicy = s.selfJumpPolicy := rfl
@[simp] theorem setStatus_status (s : State) (st : Status) : (setStatus s st).status = some st := rfl
@[simp] theorem setStatus_stopped (s : State) (st : Status) : (setStatus s st).stopped = s.stopped := rfl

/-! ### `setStopped` -/

@[simp] theorem setStopped_regs (s : State) : (setStopped s).regs = s.regs := rfl
@[simp] theorem setStopped_pc (s : State) : (setStopped s).pc = s.pc := rfl
@[simp] theorem setStopped_mem (s : State) : (setStopped s).mem = s.mem := rfl
@[simp] theorem setStopped_prog (s : State) : (setStopped s).prog = s.prog := rfl
@[simp] theorem setStopped_memInit (s : State) : (setStopped s).memInit = s.memInit := rfl
@[simp] theorem setStopped_selfJumpPolicy (s : State) : (setStopped s).selfJumpPolicy = s.selfJumpPolicy := rfl
@[simp] theorem setStopped_status (s : State) : (setStopped s).status = s.status := rfl
@[simp] theorem setStopped_stopped (s : State) : (setStopped s).stopped = true := rfl

/-! ### `writeReg` -/

theorem writeReg_regs (s : State) (i : RegIdx) (v : Int) :
    (writeReg s i v).regs = if i = 0 then s.regs else s.regs.set i (toWord v) := by
  unfold writeReg; split <;> rfl

@[simp] theorem writeReg_pc (s : State) (i : RegIdx) (v : Int) : (writeReg s i v).pc = s.pc := by
  unfold writeReg; split <;> rfl
@[simp] theorem writeReg_mem (s : State) (i : RegIdx) (v : Int) : (writeReg s i v).mem = s.mem := by
  unfold writeReg; split <;> rfl
@[simp] theorem writeReg_prog (s : State) (i : RegIdx) (v : Int) : (writeReg s i v).prog = s.prog := by
  unfold writeReg; split <;> rfl
@[simp] theorem writeReg_memInit (s : State) (i : RegIdx) (v : Int) : (writeReg s i v).memInit = s.memInit := by
  unfold writeReg; split <;> rfl
@[simp] theorem writeReg_selfJumpPolicy (s : State) (i : RegIdx) (v : Int) :
    (writeReg s i v).selfJumpPolicy = s.selfJumpPolicy := by
  unfold writeReg; split <;> rfl
@[simp] theorem writeReg_status (s : State) (i : RegIdx) (v : Int) : (writeReg s i v).status = s.status := by
  unfold writeReg; split <;> rfl
@[simp] theorem writeReg_stopped (s : State) (i : RegIdx) (v : Int) : (writeReg s i v).stopped = s.stopped := by
  unfold writeReg; split <;> rfl

/-- The slot behind register 0 is never written. -/
@[simp] theorem writeReg_zeroSlot (s : State) (i : RegIdx) (v : Int) : (writeReg s i v).regs.get 0 = s.regs.get 0 := by
  rw [writeReg_regs]
  split
  · rfl
  · rename_i h
    show (s.regs.set i.val (toWord v))[0] = s.regs[0]
    exact Vector.getElem_set_ne _ _ (fun h' => h (Fin.ext h'))

/-! ### Reading a register depends on the register file alone -/

theorem readReg_congr (s t : State) (h : s.regs = t.regs) (i : RegIdx) : readReg s i = readReg t i := by
  simp [readReg, h]

theorem xs_congr (s t : State) (h : s.regs = t.regs) (i : RegIdx) : xs s i = xs t i := by
  simp [xs, readReg_congr s t h]

theorem xu_congr (s t : State) (h : s.regs = t.regs) (i : RegIdx) : xu s i = xu t i := by
  simp [xu, readReg_congr s t h]

@[simp] theorem readReg_setPc (s : State) (t : Int) (i : RegIdx) : readReg (setPc s t) i = readReg s i := rfl
@[simp] theorem readReg_setMem (s : State) (m : Memory) (i : RegIdx) : readReg (setMem s m) i = readReg s i := rfl
@[simp] theorem readReg_setStatus (s : State) (st : Status) (i : RegIdx) :
    readReg (setStatus s st) i = readReg s i := rfl
@[simp] theorem readReg_setStopped (s : State) (i : RegIdx) : readReg (setStopped s) i = readReg s i := rfl
@[simp] theorem xs_setPc (s : State) (t : Int) (i : RegIdx) : xs (setPc s t) i = xs s i := rfl
@[simp] theorem xs_setMem (s : State) (m : Memory) (i : RegIdx) : xs (setMem s m) i = xs s i := rfl
@[simp] theorem xs_setStatus (s : State) (st : Status) (i : RegIdx) : xs (setStatus s st) i = xs s i := rfl
@[simp] theorem xs_setStopped (s : State) (i : RegIdx) : xs (setStopped s) i = xs s i := rfl
@[simp] theorem xu_setPc (s : State) (t : Int) (i : RegIdx) : xu (setPc s t) i = xu s i := rfl
@[simp] theorem xu_setMem (s : State) (m : Memory) (i : RegIdx) : xu (setMem s m) i = xu s i := rfl
@[simp] theorem xu_setStatus (s : State) (st : Status) (i : RegIdx) : xu (setStatus s st) i = xu s i := rfl
@[simp] theorem xu_setStopped (s : State) (i : RegIdx) : xu (setStopped s) i = xu s i := rfl

/-- Read after write, on patterns. -/
theorem readReg_writeReg (s : State) (i j : RegIdx) (v : Int) :
    readReg (writeReg s i v) j = if j = i ∧ i ≠ 0 then toWord v else readReg s j := by
  unfold readReg
  rw [writeReg_regs]
  by_cases hj : j = 0
  · subst hj
    by_cases hi : (0 : RegIdx) = i
    · simp [← hi]
    · simp [hi]
  · by_cases hi : i = 0
    · simp [hi]
    · simp only [if_neg hj, if_neg hi]
      show (s.regs.set i.val (toWord v))[j.val] = _
      rw [Vector.getElem_set]
      by_cases h : j = i
      · simp [h, hi]
      · have : ¬ i.val = j.val := fun h' => h (Fin.ext h'.symm)
        simp only [if_neg this, if_neg (fun h' : j = i ∧ i ≠ 0 => h h'.1)]
        rfl

end Sys2Proof.Machine
end

