-- ==== Sys2Proof/Laws/Ops.lean ====
section
/-! SUPPORT. One lemma per way an instruction ends: the whole of what it can do. -/

namespace Sys2Proof.Machine

/-- An instruction that completes at `t` leaves the state it is given but for the pc and the status. -/
theorem complete_next {s u : State} {t : Int} :
    complete s t = .next u ↔ u = setStatus (setPc s t) .ok := by
  simp [complete, eq_comm]

/-- A branch completes at one of two addresses and changes nothing else. -/
theorem branch_next {s u : State} {c : Bool} {imm : Int} :
    branch s c imm = .next u ↔
      u = setStatus (setPc s (if c then pcRelative s imm else pcPlus4 s)) .ok := complete_next

/-- A reported self-jump changes the pc, the status and, under the policy `halt`, the latch. -/
theorem reportSelfJump_next {s u : State} :
    reportSelfJump s = .next u ↔
      u.regs = s.regs ∧ u.pc = toWord (pcPlus4 s) ∧ u.mem = s.mem ∧ u.prog = s.prog ∧ u.memInit = s.memInit
        ∧ u.selfJumpPolicy = s.selfJumpPolicy ∧ u.status = some .selfJump
        ∧ (s.selfJumpPolicy = .continueRun → u.stopped = s.stopped)
        ∧ (s.selfJumpPolicy = .haltRun → u.stopped = true) := by
  cases u
  cases h : s.selfJumpPolicy <;> simp [reportSelfJump, setPc, setStatus, setStopped, h] <;> constructor <;> intro H <;>
    simp_all

/-- A reported self-jump is a step that completes. -/
theorem reportSelfJump_total (s : State) : ∃ u, reportSelfJump s = .next u := by
  cases h : s.selfJumpPolicy <;> simp [reportSelfJump, h]

/-- Instruction fetch answers a word exactly at the address of one (20_memory.md R58). -/
theorem iFetch_word {prog : List Word} {p w : Word} :
    iFetch prog p = .word w ↔ p.toNat % 4 = 0 ∧ prog[p.toNat / 4]? = some w := by
  unfold iFetch
  split
  · simp_all
  · cases h : prog[p.toNat / 4]? with
    | some v => simp_all
    | none => by_cases h' : p.toNat = 4 * prog.length <;> simp [h']

end Sys2Proof.Machine
end

