-- ==== Sys2Proof/Laws/Step.lean ====
section
/-! SUPPORT. What one step can do, said once: the inversion lemmas of `exec` and `step`, which an invariant's proof
cites instead of unfolding either. -/

namespace Sys2Proof.Machine

/-- The shapes of an executed instruction's effect. -/
inductive Effect (i : Instr) (s : State) : State → Prop where
  /-- A register write, a new pc, status `OK`. -/
  | write (rd : RegIdx) (v t : Int) (hd : i.dest = some rd) (ht : i.wellFormed = true → t % 2 = s.pc.toNat % 2) :
      Effect i s (setStatus (setPc (writeReg s rd v) t) .ok)
  /-- The link of a `jalr` that is no self-jump. -/
  | link (rd rs1 : RegIdx) (imm : Int) (hi : i = .jalr rd rs1 imm) (hj : jalrTarget s rs1 imm ≠ s.pc) :
      Effect i s (setStatus (setPc (writeReg s rd (pcPlus4 s)) ((jalrTarget s rs1 imm).toNat : Int)) .ok)
  /-- The self-jump of a `jalr`. -/
  | selfJump (rd rs1 : RegIdx) (imm : Int) (hi : i = .jalr rd rs1 imm) (hj : jalrTarget s rs1 imm = s.pc) (u : State)
      (hu : reportSelfJump s = .next u) : Effect i s u
  /-- The store of a `sw`. -/
  | store (rs1 rs2 : RegIdx) (imm : Int) (hi : i = .sw rs1 rs2 imm) :
      Effect i s (setStatus (setPc (setMem s (memWrite s.mem (effectiveAddr s rs1 imm) .word (xu s rs2))) (pcPlus4 s)) .ok)
  /-- A new pc only: a branch. -/
  | jump (t : Int) (hd : i.dest = none) (ht : i.wellFormed = true → t % 2 = s.pc.toNat % 2) :
      Effect i s (setStatus (setPc s t) .ok)

theorem pcPlus4_parity (s : State) : pcPlus4 s % 2 = s.pc.toNat % 2 := by unfold pcPlus4; omega

theorem pcRelative_parity (s : State) (imm : Int) (h : imm % 2 = 0) : pcRelative s imm % 2 = s.pc.toNat % 2 := by
  unfold pcRelative; omega

theorem even_of_immBOk {imm : Int} (h : immBOk imm = true) : imm % 2 = 0 := by
  simp [immBOk] at h; omega

theorem even_of_immJOk {imm : Int} (h : immJOk imm = true) : imm % 2 = 0 := by
  simp [immJOk] at h; omega

theorem branch_effect {i : Instr} {s u : State} {c : Bool} {imm : Int} (hd : i.dest = none)
    (hw : i.wellFormed = immBOk imm) (h : branch s c imm = .next u) : Effect i s u := by
  rw [branch_next] at h
  subst h
  refine .jump _ hd (fun w => ?_)
  split
  · exact pcRelative_parity s imm (even_of_immBOk (hw ▸ w))
  · exact pcPlus4_parity s

/-- Everything an executed instruction can do. -/
theorem exec_effect {i : Instr} {s u : State} (h : exec i s = .next u) : Effect i s u := by
  cases i with
  | add rd rs1 rs2 => rw [exec, execAdd, complete_next] at h; subst h; exact .write rd _ _ rfl (fun _ => pcPlus4_parity s)
  | sub rd rs1 rs2 => rw [exec, execSub, complete_next] at h; subst h; exact .write rd _ _ rfl (fun _ => pcPlus4_parity s)
  | srl rd rs1 rs2 => rw [exec, execSrl, complete_next] at h; subst h; exact .write rd _ _ rfl (fun _ => pcPlus4_parity s)
  | and rd rs1 rs2 => rw [exec, execAnd, complete_next] at h; subst h; exact .write rd _ _ rfl (fun _ => pcPlus4_parity s)
  | or rd rs1 rs2 => rw [exec, execOr, complete_next] at h; subst h; exact .write rd _ _ rfl (fun _ => pcPlus4_parity s)
  | slt rd rs1 rs2 => rw [exec, execSlt, complete_next] at h; subst h; exact .write rd _ _ rfl (fun _ => pcPlus4_parity s)
  | addi rd rs1 imm => rw [exec, execAddi, complete_next] at h; subst h; exact .write rd _ _ rfl (fun _ => pcPlus4_parity s)
  | lw rd rs1 imm => rw [exec, execLw, complete_next] at h; subst h; exact .write rd _ _ rfl (fun _ => pcPlus4_parity s)
  | jalr rd rs1 imm =>
    rw [exec, execJalr] at h
    split at h
    · exact .selfJump rd rs1 imm rfl ‹_› u h
    · rw [complete_next] at h; subst h; exact .link rd rs1 imm rfl ‹_›
  | sw rs1 rs2 imm => rw [exec, execSw, complete_next] at h; subst h; exact .store rs1 rs2 imm rfl
  | beq rs1 rs2 imm => exact branch_effect rfl rfl h
  | bne rs1 rs2 imm => exact branch_effect rfl rfl h
  | blt rs1 rs2 imm => exact branch_effect rfl rfl h
  | jal rd imm =>
    rw [exec, execJal, complete_next] at h; subst h
    exact .write rd _ _ rfl (fun w => pcRelative_parity s imm (even_of_immJOk w))

/-- What a step that answers a next state did: it ended the run at `4*N`, or it executed the instruction it fetched. -/
theorem step_cases {s u : State} (h : step s = .next u) :
    s.stopped = false ∧
      ((iFetch s.prog s.pc = .atEnd ∧ u = setStopped (setStatus s .haltEnd)) ∨
        ∃ w i, iFetch s.prog s.pc = .word w ∧ decode w = .instr i ∧ exec i s = .next u) := by
  unfold step stepCycle at h
  split at h
  · cases h
  · refine ⟨by simpa using ‹¬ s.stopped = true›, ?_⟩
    cases hf : iFetch s.prog s.pc with
    | atEnd => rw [hf] at h; exact .inl ⟨rfl, by simpa [stepFetched, haltEnd, eq_comm] using h⟩
    | noInstr => rw [hf] at h; simp [stepFetched, raiseFetchFault] at h
    | word w =>
      rw [hf] at h
      cases hd : decode w with
      | unknown raw => simp [stepFetched, hd, raiseUnrecognized] at h
      | instr i => exact .inr ⟨w, i, rfl, hd, by simpa [stepFetched, hd] using h⟩

end Sys2Proof.Machine
end

