-- ==== Sys2Proof/Laws/Word.lean ====
section
/-! SUPPORT. The integer views of a 32-bit pattern, as arithmetic. -/

namespace Sys2Proof

theorem u32_lt (v : Int) : u32 v < 2 ^ 32 := by
  unfold u32; omega

theorem u32_natCast (n : Nat) (h : n < 2 ^ 32) : u32 (n : Int) = n := by
  unfold u32; omega

@[simp] theorem u32_toNat (w : Word) : u32 (w.toNat : Int) = w.toNat := u32_natCast _ w.isLt

theorem s32_range (v : Int) : -2 ^ 31 ≤ s32 v ∧ s32 v < 2 ^ 31 := by
  have := u32_lt v
  unfold s32; split <;> omega

theorem s32_of_range (v : Int) (h : -2 ^ 31 ≤ v) (h' : v < 2 ^ 31) : s32 v = v := by
  unfold s32 u32; split <;> omega

/-- The signed reading of a pattern is `sext` of its unsigned reading. -/
theorem toInt_eq_sext {n : Nat} (b : BitVec n) : b.toInt = sext n b.toNat := by
  have h := b.isLt
  unfold sext
  rw [Nat.mod_eq_of_lt h, BitVec.toInt_eq_toNat_cond]
  cases n with
  | zero => simp at h; simp [h]
  | succ k =>
    simp only [Nat.add_sub_cancel]
    have : 2 ^ (k + 1) = 2 * 2 ^ k := by rw [Nat.pow_succ]; omega
    split <;> split <;> first | rfl | omega

theorem sext_range {n : Nat} (v : Nat) (h : 0 < n) : -2 ^ (n - 1) ≤ sext n v ∧ sext n v < 2 ^ (n - 1) := by
  obtain ⟨k, rfl⟩ : ∃ k, n = k + 1 := ⟨n - 1, by omega⟩
  have hm : v % 2 ^ (k + 1) < 2 ^ (k + 1) := Nat.mod_lt _ (by positivity)
  have hp : (2 : Nat) ^ (k + 1) = 2 * 2 ^ k := by rw [Nat.pow_succ]; omega
  have hc : ((2 ^ (k + 1) : Nat) : Int) = 2 ^ (k + 1) := by push_cast; rfl
  have hk : ((2 ^ k : Nat) : Int) = 2 ^ k := by push_cast; rfl
  unfold sext
  simp only [Nat.add_sub_cancel]
  split <;> omega

/-- Sign extension keeps the parity of what it extends. -/
theorem sext_even {n : Nat} (v : Nat) (h : 0 < n) (hv : v % 2 = 0) : sext n v % 2 = 0 := by
  obtain ⟨k, rfl⟩ : ∃ k, n = k + 1 := ⟨n - 1, by omega⟩
  have hp : (2 : Nat) ^ (k + 1) = 2 * 2 ^ k := by rw [Nat.pow_succ]; omega
  have hm : v % 2 ^ (k + 1) % 2 = 0 := by rw [hp, Nat.mod_mul_right_mod]; exact hv
  have hc : (2 : Int) ^ (k + 1) = 2 * 2 ^ k := by rw [pow_succ]; omega
  unfold sext
  split <;> omega

namespace Machine

theorem toWord_toNat (v : Int) : (toWord v).toNat = u32 v := by
  simp [toWord, u32, BitVec.toNat_ofInt]

theorem toWord_toInt (v : Int) : (toWord v).toInt = s32 v := by
  rw [BitVec.toInt_eq_toNat_cond, toWord_toNat]
  have := u32_lt v
  unfold s32; split <;> split <;> omega

@[simp] theorem toWord_of_toInt (w : Word) : toWord w.toInt = w := by simp [toWord]

@[simp] theorem toWord_of_toNat (w : Word) : toWord (w.toNat : Int) = w := by simp [toWord]

theorem toWord_add (a b : Int) : toWord (a + b) = toWord a + toWord b := by simp [toWord, BitVec.ofInt_add]

theorem toWord_sub (a b : Int) : toWord (a - b) = toWord a - toWord b := by
  rw [Int.sub_eq_add_neg, toWord_add, BitVec.sub_eq_add_neg]
  simp [toWord, BitVec.ofInt_neg]

end Machine

end Sys2Proof
end

