-- ==== Sys2Proof/Laws/Effects.lean ====
section
/-! SUPPORT. The shared operations in the vocabulary of the statements: one lemma for a completed register write, one for
a completed jump, and the operand forms as arithmetic. -/

namespace Sys2Proof.Machine

/-- The unsigned view of a register is `u32` of its signed value. -/
theorem xu_eq_u32 (s : State) (r : RegIdx) : xu s r = u32 (xs s r) := by
  unfold xu xs
  rw [← toWord_toNat, toWord_of_toInt]

theorem ofNat_u32 (v : Int) : BitVec.ofNat 32 (u32 v) = toWord v := by
  refine BitVec.eq_of_toNat_eq ?_
  rw [BitVec.toNat_ofNat, toWord_toNat, Nat.mod_eq_of_lt (u32_lt v)]

/-- A register write as every register sees it. -/
theorem setsRegister_writeReg (s : State) (rd : RegIdx) (v : Int) : SetsRegister s (writeReg s rd v) rd (s32 v) := by
  intro r
  show (readReg (writeReg s rd v) r).toInt = _
  rw [readReg_writeReg]
  split
  · exact toWord_toInt v
  · rfl

/-- What a completed register write does: its register, no memory, the pc and the status. -/
theorem complete_writeReg_effect (s : State) (rd : RegIdx) (v n : Int) :
    SetsRegister s (setStatus (setPc (writeReg s rd v) n) .ok) rd (s32 v) ∧
      KeepsMemory s (setStatus (setPc (writeReg s rd v) n) .ok) ∧
      CompletesAt s (setStatus (setPc (writeReg s rd v) n) .ok) n :=
  ⟨setsRegister_writeReg s rd v, fun a => by simp, by simp [toWord_toNat], rfl, by simp, by simp [KeepsRun]⟩

/-- What a completed jump does: no register, no memory, the pc and the status. -/
theorem complete_jump_effect (s : State) (n : Int) :
    KeepsRegisters s (setStatus (setPc s n) .ok) ∧ KeepsMemory s (setStatus (setPc s n) .ok) ∧
      CompletesAt s (setStatus (setPc s n) .ok) n :=
  ⟨fun _ => rfl, fun _ => rfl, toWord_toNat n, rfl, rfl, rfl, rfl, rfl⟩

/-- A byte of data memory named from an effective address. -/
theorem dmem_effectiveAddr (s : State) (rs1 : RegIdx) (imm k : Int) :
    dmem s (xs s rs1 + imm + k) = (readByte s.mem (effectiveAddr s rs1 imm + toWord k)).toNat := by
  unfold dmem effectiveAddr
  rw [ofNat_u32, toWord_add]

theorem effectiveAddr_toNat (s : State) (rs1 : RegIdx) (imm : Int) :
    (effectiveAddr s rs1 imm).toNat = u32 (xs s rs1 + imm) := toWord_toNat _

theorem shiftAmount_eq (s : State) (rs2 : RegIdx) : shiftAmount s rs2 = u32 (xs s rs2) % 32 := by
  unfold shiftAmount
  rw [xu_eq_u32]
  exact Nat.and_two_pow_sub_one_eq_mod _ 5

/-- Clearing bit 0 of a pattern. -/
theorem clearBit0_toNat (w : Word) : (w &&& 0xFFFFFFFE#32).toNat = w.toNat / 2 * 2 := by
  have h : w &&& 0xFFFFFFFE#32 = w >>> 1 <<< 1 := by
    refine BitVec.eq_of_getLsbD_eq fun i hi => ?_
    interval_cases i <;> simp
  rw [h, BitVec.toNat_shiftLeft, BitVec.toNat_ushiftRight, Nat.shiftLeft_eq, Nat.shiftRight_eq_div_pow]
  omega

theorem jalrTarget_toNat (s : State) (rs1 : RegIdx) (imm : Int) :
    (jalrTarget s rs1 imm).toNat = u32 (xs s rs1 + imm) / 2 * 2 := by
  unfold jalrTarget
  rw [clearBit0_toNat, toWord_toNat]

end Sys2Proof.Machine
end

