-- ==== Sys2Proof/Laws/Memory.lean ====
section
/-! SUPPORT. The data memory: read after write, what a write leaves alone, and that every operation keeps the canonical
form. The reading laws hold of every list, canonical or not. -/

namespace Sys2Proof.Machine

theorem lookupByte_filter_ne (m : Memory) {a k : Nat} (h : a ≠ k) :
    lookupByte (m.filter (fun c => c.1 != k)) a = lookupByte m a := by
  induction m with
  | nil => rfl
  | cons c m ih =>
    by_cases hc : c.1 = k
    · simp [lookupByte, hc, ih, Ne.symm h]
    · simp [lookupByte, hc, ih]

theorem lookupByte_filter_same (m : Memory) (k : Nat) :
    lookupByte (m.filter (fun c => c.1 != k)) k = Config.unlistedByte := by
  induction m with
  | nil => rfl
  | cons c m ih =>
    by_cases hc : c.1 = k
    · simp [hc, ih]
    · simp [lookupByte, hc, ih]

theorem lookupByte_insertCell_same (m : Memory) (k : Nat) (b : Byte) (h : ∀ c ∈ m, c.1 ≠ k) :
    lookupByte (insertCell k b m) k = b := by
  induction m with
  | nil => simp [insertCell, lookupByte]
  | cons c m ih =>
    have hc := h c (by simp)
    have hm := ih (fun d hd => h d (by simp [hd]))
    unfold insertCell
    split <;> simp [lookupByte, hc, hm]

theorem lookupByte_insertCell_ne (m : Memory) {a k : Nat} (b : Byte) (h : a ≠ k) :
    lookupByte (insertCell k b m) a = lookupByte m a := by
  induction m with
  | nil => simp [insertCell, lookupByte, Ne.symm h]
  | cons c m ih =>
    unfold insertCell
    split <;> simp [lookupByte, ih, Ne.symm h]

/-- A byte read after it is written is the byte written. -/
theorem readByte_writeByte_same (m : Memory) (a : Word) (b : Byte) : readByte (writeByte m a b) a = b := by
  unfold readByte writeByte
  split
  · rename_i h; rw [lookupByte_filter_same, h]
  · exact lookupByte_insertCell_same _ _ _ (fun c hc => by simpa using (List.mem_filter.mp hc).2)

/-- A write leaves every other byte alone. -/
theorem readByte_writeByte_ne (m : Memory) {a c : Word} (b : Byte) (h : c ≠ a) :
    readByte (writeByte m a b) c = readByte m c := by
  have hne : c.toNat ≠ a.toNat := fun h' => h (BitVec.eq_of_toNat_eq h')
  unfold readByte writeByte
  split
  · exact lookupByte_filter_ne m hne
  · rw [lookupByte_insertCell_ne _ b hne, lookupByte_filter_ne m hne]

/-! ### The canonical form -/

theorem mem_insertCell {a : Nat} {b : Byte} {m : Memory} {c : Host.Cell} :
    c ∈ insertCell a b m ↔ c = (a, b) ∨ c ∈ m := by
  induction m with
  | nil => simp [insertCell]
  | cons d m ih =>
    unfold insertCell
    split
    · simp
    · simp [ih]; tauto

theorem wf_filter {m : Memory} (h : m.wf) (k : Nat) : Memory.wf (m.filter (fun c => c.1 != k)) :=
  ⟨h.1.filter _, fun c hc => h.2 c (List.mem_filter.mp hc).1⟩

theorem pairwise_insertCell {m : Memory} (a : Nat) (b : Byte) (h : m.Pairwise (fun c d => c.1 < d.1))
    (hne : ∀ c ∈ m, c.1 ≠ a) : (insertCell a b m).Pairwise (fun c d => c.1 < d.1) := by
  induction m with
  | nil => simp [insertCell]
  | cons c m ih =>
    have hc := List.pairwise_cons.mp h
    unfold insertCell
    split
    · rename_i hlt
      exact List.pairwise_cons.mpr ⟨fun d hd => by
        rcases List.mem_cons.mp hd with rfl | hd
        · exact hlt
        · exact lt_trans hlt (hc.1 d hd), h⟩
    · rename_i hge
      have hca := hne c (by simp)
      refine List.pairwise_cons.mpr ⟨fun d hd => ?_, ih hc.2 (fun d hd => hne d (by simp [hd]))⟩
      rcases mem_insertCell.mp hd with rfl | hd
      · show c.1 < a; omega
      · exact hc.1 d hd

/-- Writing a byte keeps the canonical form. -/
theorem writeByte_wf {m : Memory} (h : m.wf) (a : Word) (b : Byte) : (writeByte m a b).wf := by
  have hf := wf_filter h a.toNat
  unfold writeByte
  split
  · exact hf
  · rename_i hb
    refine ⟨pairwise_insertCell _ _ hf.1 (fun c hc => by simpa using (List.mem_filter.mp hc).2), fun c hc => ?_⟩
    rcases mem_insertCell.mp hc with rfl | hc
    · exact ⟨a.isLt, hb⟩
    · exact hf.2 c hc

/-- Storing bytes keeps the canonical form. -/
theorem storeBytes_wf {m : Memory} (h : m.wf) (a : Word) (n u : Nat) : (storeBytes m a n u).wf := by
  induction n generalizing m a u with
  | zero => exact h
  | succ n ih => exact ih (writeByte_wf h a _) _ _

/-- `MemWrite` keeps the canonical form. -/
theorem memWrite_wf {m : Memory} (h : m.wf) (a : Word) (sz : AccessSize) (v : Int) : (memWrite m a sz v).wf :=
  storeBytes_wf h _ _ _

/-! ### Multi-byte accesses -/

/-- Storing `n` bytes at `a` leaves every byte outside them alone. -/
theorem readByte_storeBytes_outside (m : Memory) (a : Word) (n u : Nat) (c : Word)
    (h : ∀ k < n, c ≠ a + BitVec.ofNat 32 k) : readByte (storeBytes m a n u) c = readByte m c := by
  induction n generalizing m a u with
  | zero => rfl
  | succ n ih =>
    unfold storeBytes
    rw [ih, readByte_writeByte_ne]
    · simpa using h 0 (by omega)
    · intro k hk
      have := h (k + 1) (by omega)
      rwa [BitVec.ofNat_add, BitVec.add_comm (BitVec.ofNat 32 k), ← BitVec.add_assoc] at this

theorem add_ofNat_succ (a : Word) (k : Nat) : a + BitVec.ofNat 32 (k + 1) = a + 1 + BitVec.ofNat 32 k := by
  rw [BitVec.add_assoc, Nat.add_comm, BitVec.ofNat_add]; rfl

theorem ne_add_ofNat (a : Word) {k : Nat} (h0 : 0 < k) (h : k < 2 ^ 32) : a ≠ a + BitVec.ofNat 32 k := by
  intro h'
  have e := congrArg BitVec.toNat h'
  have := a.isLt
  simp [BitVec.toNat_add] at *
  omega

/-- What a store leaves in each of its bytes. -/
theorem readByte_storeBytes_inside (m : Memory) (a : Word) {n k : Nat} (u : Nat) (hk : k < n) (hn : n ≤ 2 ^ 32) :
    readByte (storeBytes m a n u) (a + BitVec.ofNat 32 k) = BitVec.ofNat 8 (u / 256 ^ k) := by
  induction n generalizing m a u k with
  | zero => omega
  | succ n ih =>
    unfold storeBytes
    cases k with
    | zero =>
      rw [readByte_storeBytes_outside]
      · simp [readByte_writeByte_same]
      · intro j hj
        rw [BitVec.add_zero, ← add_ofNat_succ]
        exact ne_add_ofNat a (by omega) (by omega)
    | succ k =>
      rw [add_ofNat_succ, ih _ _ _ (by omega) (by omega), Nat.div_div_eq_div_mul, Nat.pow_succ, Nat.mul_comm]

/-! ### Memories that read alike are loaded from, and stored to, alike -/

theorem loadBytes_congr {m m' : Memory} (h : ∀ a, readByte m a = readByte m' a) (a : Word) (n : Nat) :
    loadBytes m a n = loadBytes m' a n := by
  induction n generalizing a with
  | zero => rfl
  | succ n ih => unfold loadBytes; rw [h, ih]

theorem readByte_storeBytes_congr {m m' : Memory} (h : ∀ a, readByte m a = readByte m' a) (a : Word) (n u : Nat)
    (c : Word) : readByte (storeBytes m a n u) c = readByte (storeBytes m' a n u) c := by
  induction n generalizing m m' a u with
  | zero => exact h c
  | succ n ih =>
    refine ih (fun d => ?_) _ _
    by_cases hd : d = a
    · rw [hd, readByte_writeByte_same, readByte_writeByte_same]
    · rw [readByte_writeByte_ne _ _ hd, readByte_writeByte_ne _ _ hd, h d]

end Sys2Proof.Machine
end

