-- ==== Sys2Proof/Laws/PerInstr.lean ====
section
/-! SUPPORT. Families of facts about the instruction as syntax, one lemma per constructor. -/

namespace Sys2Proof.Laws.SelectorBits

/-- The encoder's word is a word of the instruction's own row of the opcode table. -/
def Statement (i : Instr) : Prop := ∃ r ∈ opcodeRows, r.mnemonic = i.mnemonic ∧ r.matchesWord (encode i) = true

/-- An R-type word matches the row that carries its selectors. -/
theorem matches_encodeR (n : String) (v : Word) (f7 : BitVec 7) (rs2 rs1 : RegIdx) (f3 : BitVec 3) (rd : RegIdx)
    (op : BitVec 7) (hv : v.toNat = f7.toNat * 2 ^ 25 + f3.toNat * 2 ^ 12 + op.toNat) :
    OpcodeRow.matchesWord ⟨n, v, 0xFE00707F⟩ (encodeR f7 rs2 rs1 f3 rd op) = true :=
  have ⟨ho, h3, h7, _⟩ := fields_encodeR f7 rs2 rs1 f3 rd op
  (matchesWord_R n f7 f3 op v _ hv).mpr ⟨ho, h3, h7⟩

/-- An I-type word matches the row that carries its selectors. -/
theorem matches_encodeI (n : String) (v : Word) (imm : BitVec 12) (rs1 : RegIdx) (f3 : BitVec 3) (rd : RegIdx)
    (op : BitVec 7) (hv : v.toNat = f3.toNat * 2 ^ 12 + op.toNat) :
    OpcodeRow.matchesWord ⟨n, v, 0x0000707F⟩ (encodeI imm rs1 f3 rd op) = true :=
  have ⟨ho, h3, _⟩ := fields_encodeI imm rs1 f3 rd op
  (matchesWord_I n f3 op v _ hv).mpr ⟨ho, h3⟩

/-- An S-type word matches the row that carries its selectors. -/
theorem matches_encodeS (n : String) (v : Word) (imm : BitVec 12) (rs2 rs1 : RegIdx) (f3 : BitVec 3)
    (op : BitVec 7) (hv : v.toNat = f3.toNat * 2 ^ 12 + op.toNat) :
    OpcodeRow.matchesWord ⟨n, v, 0x0000707F⟩ (encodeS imm rs2 rs1 f3 op) = true :=
  have ⟨ho, h3, _⟩ := fields_encodeS imm rs2 rs1 f3 op
  (matchesWord_I n f3 op v _ hv).mpr ⟨ho, h3⟩

/-- A B-type word matches the row that carries its selectors. -/
theorem matches_encodeB (n : String) (v : Word) (imm : BitVec 13) (rs2 rs1 : RegIdx) (f3 : BitVec 3)
    (op : BitVec 7) (hv : v.toNat = f3.toNat * 2 ^ 12 + op.toNat) :
    OpcodeRow.matchesWord ⟨n, v, 0x0000707F⟩ (encodeB imm rs2 rs1 f3 op) = true :=
  have ⟨ho, h3, _⟩ := fields_encodeB imm rs2 rs1 f3 op
  (matchesWord_I n f3 op v _ hv).mpr ⟨ho, h3⟩

/-- A J-type word matches the row that carries its opcode. -/
theorem matches_encodeJ (n : String) (v : Word) (imm : BitVec 21) (rd : RegIdx) (op : BitVec 7)
    (hv : v.toNat = op.toNat) : OpcodeRow.matchesWord ⟨n, v, 0x0000007F⟩ (encodeJ imm rd op) = true :=
  (matchesWord_J n op v _ hv).mpr (fields_encodeJ imm rd op).1

theorem add (rd rs1 rs2 : RegIdx) : Statement (.add rd rs1 rs2) :=
  ⟨⟨"add", 0x00000033, 0xFE00707F⟩, by decide, rfl, matches_encodeR _ _ _ _ _ _ _ _ rfl⟩
theorem sub (rd rs1 rs2 : RegIdx) : Statement (.sub rd rs1 rs2) :=
  ⟨⟨"sub", 0x40000033, 0xFE00707F⟩, by decide, rfl, matches_encodeR _ _ _ _ _ _ _ _ rfl⟩
theorem srl (rd rs1 rs2 : RegIdx) : Statement (.srl rd rs1 rs2) :=
  ⟨⟨"srl", 0x00005033, 0xFE00707F⟩, by decide, rfl, matches_encodeR _ _ _ _ _ _ _ _ rfl⟩
theorem and (rd rs1 rs2 : RegIdx) : Statement (.and rd rs1 rs2) :=
  ⟨⟨"and", 0x00007033, 0xFE00707F⟩, by decide, rfl, matches_encodeR _ _ _ _ _ _ _ _ rfl⟩
theorem or (rd rs1 rs2 : RegIdx) : Statement (.or rd rs1 rs2) :=
  ⟨⟨"or", 0x00006033, 0xFE00707F⟩, by decide, rfl, matches_encodeR _ _ _ _ _ _ _ _ rfl⟩
theorem slt (rd rs1 rs2 : RegIdx) : Statement (.slt rd rs1 rs2) :=
  ⟨⟨"slt", 0x00002033, 0xFE00707F⟩, by decide, rfl, matches_encodeR _ _ _ _ _ _ _ _ rfl⟩
theorem addi (rd rs1 : RegIdx) (imm : Int) : Statement (.addi rd rs1 imm) :=
  ⟨⟨"addi", 0x00000013, 0x0000707F⟩, by decide, rfl, matches_encodeI _ _ _ _ _ _ _ rfl⟩
theorem lw (rd rs1 : RegIdx) (imm : Int) : Statement (.lw rd rs1 imm) :=
  ⟨⟨"lw", 0x00002003, 0x0000707F⟩, by decide, rfl, matches_encodeI _ _ _ _ _ _ _ rfl⟩
theorem jalr (rd rs1 : RegIdx) (imm : Int) : Statement (.jalr rd rs1 imm) :=
  ⟨⟨"jalr", 0x00000067, 0x0000707F⟩, by decide, rfl, matches_encodeI _ _ _ _ _ _ _ rfl⟩
theorem sw (rs1 rs2 : RegIdx) (imm : Int) : Statement (.sw rs1 rs2 imm) :=
  ⟨⟨"sw", 0x00002023, 0x0000707F⟩, by decide, rfl, matches_encodeS _ _ _ _ _ _ _ rfl⟩
theorem beq (rs1 rs2 : RegIdx) (imm : Int) : Statement (.beq rs1 rs2 imm) :=
  ⟨⟨"beq", 0x00000063, 0x0000707F⟩, by decide, rfl, matches_encodeB _ _ _ _ _ _ _ rfl⟩
theorem bne (rs1 rs2 : RegIdx) (imm : Int) : Statement (.bne rs1 rs2 imm) :=
  ⟨⟨"bne", 0x00001063, 0x0000707F⟩, by decide, rfl, matches_encodeB _ _ _ _ _ _ _ rfl⟩
theorem blt (rs1 rs2 : RegIdx) (imm : Int) : Statement (.blt rs1 rs2 imm) :=
  ⟨⟨"blt", 0x00004063, 0x0000707F⟩, by decide, rfl, matches_encodeB _ _ _ _ _ _ _ rfl⟩
theorem jal (rd : RegIdx) (imm : Int) : Statement (.jal rd imm) :=
  ⟨⟨"jal", 0x0000006F, 0x0000007F⟩, by decide, rfl, matches_encodeJ _ _ _ _ _ rfl⟩

end Sys2Proof.Laws.SelectorBits
end

