-- ==== Sys2Proof/Tests/Slice0.lean ====
section
/-! SUPPORT. Tests: ill-formed terms that `wellFormed` refuses; words of spec/95_test_vectors.md decoded and encoded; at
most two steps per instruction from its Part B3; and for every statement with hypotheses a theorem that shows they can be
met together. Expected values are the spec's; the comment names the row. -/

namespace Sys2Proof.Tests

open Sys2Proof.Machine

/-! ### `wellFormed` refuses what no word encodes (30_encoding.md R98) -/

theorem test_imm12_above_range_refused : (Instr.addi 1 0 2048).wellFormed = false := by decide
theorem test_imm12_below_range_refused : (Instr.sw 1 0 (-2049)).wellFormed = false := by decide
theorem test_immB_above_range_refused : (Instr.beq 1 0 4096).wellFormed = false := by decide
theorem test_immB_below_range_refused : (Instr.bne 1 0 (-4098)).wellFormed = false := by decide
theorem test_immB_odd_refused : (Instr.blt 1 0 3).wellFormed = false := by decide
theorem test_immJ_above_range_refused : (Instr.jal 1 1048576).wellFormed = false := by decide
theorem test_immJ_below_range_refused : (Instr.jal 1 (-1048578)).wellFormed = false := by decide
theorem test_immJ_odd_refused : (Instr.jal 1 1).wellFormed = false := by decide

/-! ### Words written out: both directions (95_test_vectors.md B1) -/

/-- The word decodes to the instruction, which is well formed and encodes to the word. -/
def bothWays (w : Word) (i : Instr) : Bool := decode w == .instr i && encode i == w && i.wellFormed

/-- D-1 to D-8, and `add x3,x1,x2` bit by bit (41_r_type.md R151). -/
theorem test_words_of_R_type :
    bothWays 0b00000000001000001000000110110011 (.add 3 1 2) &&
    bothWays 0x01FF8FB3 (.add 31 31 31) && bothWays 0x00000033 (.add 0 0 0) && bothWays 0x40000033 (.sub 0 0 0)
      && bothWays 0x403100B3 (.sub 1 2 3) && bothWays 0x015558B3 (.srl 17 10 21) && bothWays 0x007372B3 (.and 5 6 7)
      && bothWays 0x00A4E433 (.or 8 9 10) && bothWays 0x01F02FB3 (.slt 31 0 31) = true := by decide

/-- D-9 to D-12. -/
theorem test_words_of_addi :
    bothWays 0x80000093 (.addi 1 0 (-2048)) && bothWays 0x7FF00093 (.addi 1 0 2047) && bothWays 0x00000013 (.addi 0 0 0)
      && bothWays 0xFFFF8F93 (.addi 31 31 (-1)) = true := by decide

/-- D-13 to D-15. -/
theorem test_words_of_lw :
    bothWays 0x80012083 (.lw 1 2 (-2048)) && bothWays 0x7FFFAF83 (.lw 31 31 2047) && bothWays 0x00002003 (.lw 0 0 0)
      = true := by decide

/-- D-16 to D-18. -/
theorem test_words_of_jalr :
    bothWays 0x00008067 (.jalr 0 1 0) && bothWays 0x800280E7 (.jalr 1 5 (-2048)) && bothWays 0x7FFF8FE7 (.jalr 31 31 2047)
      = true := by decide

/-- D-19 to D-24. -/
theorem test_words_of_sw :
    bothWays 0x00002023 (.sw 0 0 0) && bothWays 0x81FFA023 (.sw 31 31 (-2048)) && bothWays 0x7E112FA3 (.sw 2 1 2047)
      && bothWays 0xFE532FA3 (.sw 6 5 (-1)) && bothWays 0x00532FA3 (.sw 6 5 31) && bothWays 0x02532023 (.sw 6 5 32)
      = true := by decide

/-- D-25 to D-34. -/
theorem test_words_of_B_type :
    bothWays 0x00000063 (.beq 0 0 0) && bothWays 0x00208463 (.beq 1 2 8) && bothWays 0x81FF8063 (.beq 31 31 (-4096))
      && bothWays 0x7FFF9FE3 (.bne 31 31 4094) && bothWays 0x0020C163 (.blt 1 2 2) && bothWays 0xFE20CFE3 (.blt 1 2 (-2))
      && bothWays 0x004190E3 (.bne 3 4 2048) && bothWays 0x804190E3 (.bne 3 4 (-2048))
      && bothWays 0x00208863 (.beq 1 2 16) && bothWays 0x02208063 (.beq 1 2 32) = true := by decide

/-- D-35 to D-45. -/
theorem test_words_of_J_type :
    bothWays 0x0000006F (.jal 0 0) && bothWays 0x800000EF (.jal 1 (-1048576)) && bothWays 0x7FFFFFEF (.jal 31 1048574)
      && bothWays 0x002000EF (.jal 1 2) && bothWays 0xFFFFF0EF (.jal 1 (-2)) && bothWays 0x001000EF (.jal 1 2048)
      && bothWays 0x000010EF (.jal 1 4096) && bothWays 0x800FF0EF (.jal 1 (-4096)) && bothWays 0x7FE002EF (.jal 5 2046)
      && bothWays 0x000FF2EF (.jal 5 1044480) = true := by decide

/-- U-1 to U-16 (95_test_vectors.md B2). -/
theorem test_unknown_words_of_R_and_I_opcodes : ([0x00000000, 0xFFFFFFFF, 0x00001033, 0x00003033, 0x00004033,
    0x40005033, 0x02000033, 0x20000033, 0x40007033, 0x00002013, 0x00007013, 0x00001013, 0x00000003, 0x00001003,
    0x00004003, 0x00001067] : List Word).all (fun w => decode w == .unknown w) = true := by decide

/-- U-17 to U-33. -/
theorem test_unknown_words_of_other_opcodes : ([0x00000023, 0x00001023, 0x00005063, 0x00006063, 0x00007063,
    0x00002063, 0x00000037, 0x00000017, 0x00000073, 0x00100073, 0x30200073, 0x10500073, 0x0000000F, 0x0000100F,
    0x00000001, 0x00000032, 0x0000006B] : List Word).all (fun w => decode w == .unknown w) = true := by decide

/-- The table's numbering is the word's own (30_encoding.md R80). -/
theorem test_table_word_is_the_word : decodeTableWord 32 0x00208463 = some (.beq 1 2 8)
    ∧ decodeTableWord 32 0 = none := by decide

/-! ### One step each (95_test_vectors.md B3) -/

/-- The reset state with some registers written, a pc, data memory and a program. -/
def stateWith (regs : List (RegIdx × Int)) (pc : Word) (mem : Memory := []) (prog : List Word := []) : State :=
  { regs.foldl (fun s r => writeReg s r.1 r.2) State.reset with pc := pc, mem := mem, prog := prog }

/-- What executing the word gives: one register, the pc and the status. -/
def after (s : State) (w : Word) (r : RegIdx) : Option (Int × Nat × Option Status) :=
  match decode w with
  | .instr i => match exec i s with
    | .next t => some (xs t r, t.pc.toNat, t.status)
    | .fault _ => none
    | .refused _ => none
  | .unknown _ => none

/-- Data memory after executing the word. -/
def memAfter (s : State) (w : Word) : Option Memory :=
  match decode w with
  | .instr i => match exec i s with
    | .next t => some t.mem
    | .fault _ => none
    | .refused _ => none
  | .unknown _ => none

/-- X-add-1. -/
theorem test_add_wraps :
    after (stateWith [(1, 2147483647), (2, 1)] 0) 0x002081B3 3 = some (-2147483648, 4, some .ok) := by decide
/-- X-add-4. -/
theorem test_add_reads_before_it_writes :
    after (stateWith [(1, 1073741824)] 0) 0x001080B3 1 = some (-2147483648, 4, some .ok) := by decide
/-- X-sub-1. -/
theorem test_sub_wraps :
    after (stateWith [(1, -2147483648), (2, 1)] 0) 0x402081B3 3 = some (2147483647, 4, some .ok) := by decide
/-- X-sub-4. -/
theorem test_sub_order :
    after (stateWith [(1, 5), (2, 7)] 0) 0x402081B3 3 = some (-2, 4, some .ok) := by decide
/-- X-srl-2. -/
theorem test_srl_by_0_stays_negative :
    after (stateWith [(1, -2147483648), (2, 0)] 0) 0x0020D1B3 3 = some (-2147483648, 4, some .ok) := by decide
/-- X-srl-5. -/
theorem test_srl_masks_the_amount :
    after (stateWith [(1, -2), (2, -1)] 0) 0x0020D1B3 3 = some (1, 4, some .ok) := by decide
/-- X-and-1. -/
theorem test_and_bits :
    after (stateWith [(1, -1), (2, 305419896)] 0) 0x0020F1B3 3 = some (305419896, 4, some .ok) := by decide
/-- X-and-2. -/
theorem test_and_disjoint_bits :
    after (stateWith [(1, 252645135), (2, -252645136), (3, 7)] 0) 0x0020F1B3 3 = some (0, 4, some .ok) := by decide
/-- X-or-1. -/
theorem test_or_bits :
    after (stateWith [(1, 252645135), (2, -252645136)] 0) 0x0020E1B3 3 = some (-1, 4, some .ok) := by decide
/-- X-or-3. -/
theorem test_or_high_bits :
    after (stateWith [(1, 1073741824), (2, -2147483648)] 0) 0x0020E1B3 3 = some (-1073741824, 4, some .ok) := by decide
/-- X-slt-1. -/
theorem test_slt_is_signed :
    after (stateWith [(1, -1), (2, 0)] 0) 0x0020A1B3 3 = some (1, 4, some .ok) := by decide
/-- X-slt-5. -/
theorem test_slt_extremes :
    after (stateWith [(1, 2147483647), (2, -2147483648), (3, 9)] 0) 0x0020A1B3 3 = some (0, 4, some .ok) := by decide
/-- X-addi-6. -/
theorem test_addi_reads_the_reset_stack_pointer :
    after (stateWith [] 0) 0xFF010113 2 = some (364, 4, some .ok) := by decide
/-- X-addi-7. -/
theorem test_addi_to_x0_and_pc_wrap :
    after (stateWith [(1, 1)] 0xFFFFFFFC) 0x00508013 0 = some (0, 0, some .ok) := by decide
/-- X-lw-2. -/
theorem test_lw_misaligned :
    after (stateWith [(1, 256)] 0 [(0x100, 0x44), (0x101, 0x33), (0x102, 0x22), (0x103, 0x11), (0x104, 0xAA)])
      0x0010A283 5 = some (-1441717709, 4, some .ok) := by decide
/-- X-lw-8. -/
theorem test_lw_wraps_round_the_top :
    after (stateWith [] 0 [(0, 0x33), (1, 0x44), (0xFFFFFFFE, 0x11), (0xFFFFFFFF, 0x22)]) 0xFFE02283 5
      = some (1144201745, 4, some .ok) := by decide
/-- X-jalr-5. -/
theorem test_jalr_links_after_reading :
    after (stateWith [(1, 32)] 0x40) 0x000080E7 1 = some (68, 0x20, some .ok) := by decide
/-- X-jalr-3. -/
theorem test_jalr_self_jump :
    after (stateWith [(1, 77), (5, 65)] 0x40) 0x000280E7 1 = some (77, 0x44, some .selfJump) := by decide
/-- X-sw-4: exactly four bytes change. -/
theorem test_sw_four_bytes :
    memAfter (stateWith [(1, 256), (5, -1430532899)] 0 [(0x100, 1), (0x101, 2), (0x102, 3), (0x103, 4), (0x104, 5),
      (0x105, 6), (0x106, 7)]) 0x0050A123
      = some [(0x100, 1), (0x101, 2), (0x102, 0xDD), (0x103, 0xCC), (0x104, 0xBB), (0x105, 0xAA), (0x106, 7)] := by decide
/-- X-sw-6. -/
theorem test_sw_wraps_round_the_top :
    memAfter (stateWith [(5, 1144201745)] 0) 0xFE502F23
      = some [(0, 0x33), (1, 0x44), (0xFFFFFFFE, 0x11), (0xFFFFFFFF, 0x22)] := by decide
/-- X-beq-2. -/
theorem test_beq_not_taken :
    after (stateWith [(1, 9), (2, 8)] 0x64) 0x00208463 1 = some (9, 0x68, some .ok) := by decide
/-- X-beq-4. -/
theorem test_beq_wraps_below_0 :
    after (stateWith [] 0) 0xFE000EE3 0 = some (0, 0xFFFFFFFC, some .ok) := by decide
/-- X-bne-2. -/
theorem test_bne_same_register :
    after (stateWith [(1, 3)] 0x14) 0x00109863 1 = some (3, 0x18, some .ok) := by decide
/-- X-bne-3. -/
theorem test_bne_backward :
    after (stateWith [(1, 3)] 0xC) 0xFE009CE3 1 = some (3, 4, some .ok) := by decide
/-- X-blt-4. -/
theorem test_blt_is_signed :
    after (stateWith [(1, 0), (2, -1)] 0) 0x0020C663 1 = some (0, 4, some .ok) := by decide
/-- X-blt-7. -/
theorem test_blt_displacement_2 :
    after (stateWith [(1, 0), (2, 1)] 4) 0x0020C163 1 = some (0, 6, some .ok) := by decide
/-- X-jal-3. -/
theorem test_jal_to_itself_links :
    after (stateWith [] 0x10) 0x000000EF 1 = some (20, 0x10, some .ok) := by decide
/-- X-jal-8. -/
theorem test_jal_link_and_target_wrap :
    after (stateWith [(1, 9)] 0xFFFFFFFC) 0x008000EF 1 = some (0, 4, some .ok) := by decide

/-! ### Fetch (95_test_vectors.md B4) -/

/-- A three-word program. -/
def prog3 : List Word := [0x00500093, 0x00A00113, 0x002081B3]

/-- The status output of a step from a pc of the three-word program. -/
def statusAt (pc : Word) (prog : List Word := prog3) : Option Status := statusOf (step (stateWith [] pc [] prog))

/-- F-1 to F-4. -/
theorem test_fetch_in_order : statusAt 0 = some .ok ∧ statusAt 8 = some .ok ∧ statusAt 0xC = some .haltEnd
    ∧ statusAt 0x10 = some .fetchFault := by decide
/-- F-5 to F-8. -/
theorem test_fetch_elsewhere : statusAt 6 = some .fetchFault ∧ statusAt 0xE = some .fetchFault
    ∧ statusAt 0xFFFFFFFC = some .fetchFault ∧ statusAt 0 [] = some .haltEnd := by decide
/-- F-9. -/
theorem test_fetch_then_decode : statusAt 4 [0x00500093, 0, 0x002081B3] = some (.unrecognized 0) := by decide

/-- P5b: under `halt` the self-jump stops the core; under `continue` it does not (60_exceptions.md R243). -/
theorem test_self_jump_policy :
    (match exec (.jalr 1 0 0) (State.resetWith [] [] .haltRun) with | .next t => t.stopped | _ => false) = true
    ∧ (match exec (.jalr 1 0 0) (State.resetWith [] [] .continueRun) with | .next t => t.stopped | _ => true) = false := by
  decide

/-! ### The hypotheses of the statements can be met -/

/-- A small running state: 9 in `x1`, -1 in `x5`, pc 4, one byte of memory, `addi x1,x1,1` at 0 and `sw x5,0(x1)` at 4. -/
def running : State := stateWith [(1, 9), (5, -1)] 4 [(9, 0x77)] [0x00108093, 0x0050A023]

/-- RegistersHoldSigned32BitValues, last clause: another register of a state that holds a negative value. -/
theorem test_witness_other_register : (0 : RegIdx) ≠ 5 ∧ xs running 5 = -1 ∧ xu running 5 = 0xFFFFFFFF := by decide

/-- RegisterZeroIsHardwired, third clause. -/
theorem test_witness_withDest : ∃ t, exec (withDest 3 (.add 1 1 5)) running = .next t := ⟨_, rfl⟩

/-- SourceRegistersDetermineTheEffect: two states that differ in a register the instruction does not read. -/
theorem test_witness_sources : ∃ s' t', (∀ r ∈ (Instr.lw 3 1 0).sources, xs running r = xs (writeReg running 7 5) r)
    ∧ running.pc = (writeReg running 7 5).pc ∧ running.stopped = (writeReg running 7 5).stopped
    ∧ running.selfJumpPolicy = (writeReg running 7 5).selfJumpPolicy
    ∧ (∀ a, readByte running.mem a = readByte (writeReg running 7 5).mem a)
    ∧ exec (.lw 3 1 0) running = .next s' ∧ exec (.lw 3 1 0) (writeReg running 7 5) = .next t'
    ∧ xs running 7 ≠ xs (writeReg running 7 5) 7 :=
  ⟨_, _, by decide, by decide, by decide, by decide, fun _ => rfl, rfl, rfl, by decide⟩

/-- DataMemoryIsReadByLwAndWrittenBySw, third and fourth clauses: an instruction that is neither. -/
theorem test_witness_neither_lw_nor_sw : (Instr.add 3 1 5).mnemonic ≠ "sw" ∧ (Instr.add 3 1 5).mnemonic ≠ "lw"
    ∧ ∃ t, exec (.add 3 1 5) running = .next t := ⟨by decide, by decide, _, rfl⟩

/-- The same, fourth clause with `sw`, third clause with `lw`. -/
theorem test_witness_sw_is_not_lw : (Instr.sw 1 5 0).mnemonic ≠ "lw" ∧ (Instr.lw 3 1 0).mnemonic ≠ "sw"
    ∧ (∃ t, exec (.sw 1 5 0) running = .next t) ∧ ∃ t, exec (.lw 3 1 0) running = .next t :=
  ⟨by decide, by decide, ⟨_, rfl⟩, _, rfl⟩

/-- MemWriteSetsItsBytesOnly and SwStoresLittleEndianWord: a byte next to a stored word, across the top of the space. -/
theorem test_witness_byte_outside : ∀ k : Nat, k < 4 → (2 : Word) ≠ 0xFFFFFFFE + BitVec.ofNat 32 k := by decide

/-- FieldsStandAtTheirFixedPositions: an instruction with a destination and two sources, every field 31. -/
theorem test_witness_fields : decode 0x01FF8FB3 = .instr (.add 31 31 31) ∧ (Instr.add 31 31 31).dest = some 31
    ∧ (Instr.add 31 31 31).sources[0]? = some 31 ∧ (Instr.add 31 31 31).sources[1]? = some 31 := by decide

/-- ImmediateOfIFormIsSignExtended: each of the three forms, at both ends of the range. -/
theorem test_witness_immI : decode 0x80000093 = .instr (.addi 1 0 (-2048)) ∧ decode 0x7FFFAF83 = .instr (.lw 31 31 2047)
    ∧ decode 0x800280E7 = .instr (.jalr 1 5 (-2048)) := by decide

/-- ImmediateOfSFormIsSignExtended, at both ends. -/
theorem test_witness_immS : decode 0x81FFA023 = .instr (.sw 31 31 (-2048)) ∧ decode 0x7E112FA3 = .instr (.sw 2 1 2047) := by
  decide

/-- ImmediateOfBFormIsSignExtended: each of the three forms, at both ends. -/
theorem test_witness_immB : decode 0x81FF8063 = .instr (.beq 31 31 (-4096)) ∧ decode 0x7FFF9FE3 = .instr (.bne 31 31 4094)
    ∧ decode 0xFE20CFE3 = .instr (.blt 1 2 (-2)) := by decide

/-- ImmediateOfJFormIsSignExtended, at both ends. -/
theorem test_witness_immJ : decode 0x800000EF = .instr (.jal 1 (-1048576)) ∧ decode 0x7FFFFFEF = .instr (.jal 31 1048574) := by
  decide

/-- DecoderFollowsTheOpcodeTable: a word of a row, a word of none. -/
theorem test_witness_table : (⟨"jal", 0x0000006F, 0x0000007F⟩ : OpcodeRow) ∈ opcodeRows
    ∧ OpcodeRow.matchesWord ⟨"jal", 0x0000006F, 0x0000007F⟩ 0xFFFFF0EF = true ∧ decode 0xFFFFF0EF = .instr (.jal 1 (-2))
    ∧ decode 0 = .unknown 0 := by decide

/-- OtherWordsDecodeToUnknown, first clause: U-33, and words of the opcodes 0001011 and 1010011; low two bits 11. -/
theorem test_witness_other_opcode :
    opcode 0x0000006B ∉ [0b0110011#7, 0b0010011#7, 0b0000011#7, 0b1100111#7, 0b0100011#7, 0b1100011#7, 0b1101111#7]
    ∧ opcode 0x0000000B ∉ [0b0110011#7, 0b0010011#7, 0b0000011#7, 0b1100111#7, 0b0100011#7, 0b1100011#7, 0b1101111#7]
    ∧ opcode 0x00000053 ∉ [0b0110011#7, 0b0010011#7, 0b0000011#7, 0b1100111#7, 0b0100011#7, 0b1100011#7, 0b1101111#7] := by
  decide

/-- OtherWordsDecodeToUnknown: a word for each clause but the first (U-31; U-25, U-29, U-23, U-24, U-2 and an AMO word; U-3, U-4, U-5,
U-6, U-8, U-9; U-10; U-13; U-16; U-17; U-22, U-19, U-21). -/
theorem test_witness_other_words :
    (0x00000001 : Word).toNat % 4 ≠ 3
    ∧ (opcode 0x00000073 = 0b1110011#7 ∧ opcode 0x0000000F = 0b0001111#7 ∧ opcode 0x0000002F = 0b0101111#7
      ∧ opcode 0x00000037 = 0b0110111#7 ∧ opcode 0x00000017 = 0b0010111#7)
    ∧ (opcode 0x40005033 = 0b0110011#7 ∧ funct7 0x40005033 ≠ 0#7
      ∧ ¬ (funct7 0x40005033 = 0b0100000#7 ∧ funct3 0x40005033 = 0b000#3))
    ∧ (opcode 0x20000033 = 0b0110011#7 ∧ funct7 0x20000033 ≠ 0#7 ∧ funct7 0x20000033 ≠ 0b0100000#7)
    ∧ (opcode 0x00001033 = 0b0110011#7 ∧ funct3 0x00001033 = 0b001#3)
    ∧ (opcode 0x00003033 = 0b0110011#7 ∧ funct3 0x00003033 = 0b011#3)
    ∧ (opcode 0x00004033 = 0b0110011#7 ∧ funct3 0x00004033 = 0b100#3)
    ∧ (opcode 0x00002013 = 0b0010011#7 ∧ funct3 0x00002013 ≠ 0b000#3)
    ∧ (opcode 0x00000003 = 0b0000011#7 ∧ funct3 0x00000003 ≠ 0b010#3)
    ∧ (opcode 0x00001067 = 0b1100111#7 ∧ funct3 0x00001067 ≠ 0b000#3)
    ∧ (opcode 0x00000023 = 0b0100011#7 ∧ funct3 0x00000023 ≠ 0b010#3)
    ∧ (opcode 0x00002063 = 0b1100011#7 ∧ funct3 0x00002063 = 0b010#3)
    ∧ (opcode 0x00003063 = 0b1100011#7 ∧ funct3 0x00003063 = 0b011#3)
    ∧ (opcode 0x00005063 = 0b1100011#7 ∧ 0b101#3 ≤ funct3 0x00005063) := by decide

/-- DecodeOfEncodeIsTheInstruction: well-formed at the ends of every range. -/
theorem test_witness_well_formed :
    (Instr.addi 31 0 2047).wellFormed && (Instr.lw 0 31 (-2048)).wellFormed && (Instr.jalr 0 31 2047).wellFormed
      && (Instr.sw 31 0 (-2048)).wellFormed && (Instr.beq 0 31 4094).wellFormed && (Instr.bne 0 31 (-4096)).wellFormed
      && (Instr.blt 0 31 0).wellFormed && (Instr.jal 31 1048574).wellFormed && (Instr.jal 0 (-1048576)).wellFormed
      && (Instr.slt 31 0 31).wellFormed = true := by decide

/-- StepRunsTheDecodedInstruction, PlacedWordIsTheNextOneRun, EncodeOfDecodeIsTheWord. -/
theorem test_witness_step : running.stopped = false ∧ running.pc.toNat % 4 = 0
    ∧ running.prog[running.pc.toNat / 4]? = some 0x0050A023 ∧ decode 0x0050A023 = .instr (.sw 1 5 0) := by decide

/-- StepStopsOnUnknownWordsExactly: the right-hand side can be met. -/
theorem test_witness_unknown_word : (stateWith [] 4 [] [0x00100093, 0]).stopped = false
    ∧ (stateWith [] 4 [] [0x00100093, 0]).prog[(4 : Word).toNat / 4]? = some 0
    ∧ ∀ r ∈ opcodeRows, r.matchesWord 0 = false := by decide

/-- StepStopsWhereNoInstructionStands: a misaligned pc inside the program, the first multiple of 4 beyond it. -/
theorem test_witness_no_instruction : (stateWith [] 6 [] prog3).pc.toNat % 4 ≠ 0
    ∧ (stateWith [] 0x10 [] prog3).pc.toNat > 4 * prog3.length ∧ (stateWith [] 6 [] prog3).stopped = false := by decide

/-- The three-word program at its end. -/
def atEnd : State := stateWith [] 0xC [] prog3

/-- RunEndsNormallyAtTheProgramEnd, both clauses. -/
theorem test_witness_end : atEnd.stopped = false ∧ atEnd.pc.toNat = 4 * atEnd.prog.length
    ∧ ∃ t, step atEnd = .next t ∧ t.status = some .haltEnd := ⟨by decide, by decide, _, rfl, rfl⟩

/-- StoppedCoreTakesNoStepUntilReset: a stopped core, a core that runs. -/
theorem test_witness_stopped : (setStopped atEnd).stopped = true ∧ Reaches (setStopped atEnd) (setStopped atEnd)
    ∧ running.stopped = false := ⟨rfl, .refl, by decide⟩

/-- NextPcFollowsTheTable, in both outcomes of `jalr` and of a branch, and NoStepWritesTheProgram. -/
theorem test_witness_next : (∃ t, exec (.jalr 1 0 4) running = .next t) ∧ (∃ t, exec (.jalr 1 1 0) running = .next t)
    ∧ jalrTarget running 0 4 = running.pc ∧ jalrTarget running 1 0 ≠ running.pc
    ∧ (∃ t, exec (.beq 1 1 8) running = .next t) ∧ (∃ t, exec (.beq 1 5 8) running = .next t)
    ∧ ∃ t, step running = .next t :=
  ⟨⟨_, rfl⟩, ⟨_, rfl⟩, by decide, by decide, ⟨_, rfl⟩, ⟨_, rfl⟩, _, rfl⟩

/-- RecognizedInstructionsAlwaysComplete: the self-jump condition can hold and can fail. -/
theorem test_witness_self_jump : u32 (xs running 0 + 4) / 2 * 2 = running.pc.toNat
    ∧ u32 (xs running 1 + 0) / 2 * 2 ≠ running.pc.toNat := by decide

/-- ResetStartsANewRun: a state reached by a step. -/
theorem test_witness_reaches : ∃ t, Reaches running t ∧ t.pc = 8 := ⟨_, .tail running _ .refl rfl, by decide⟩

/-- EveryStepKeepsTheInvariant: a state in the middle of a run meets it and takes a step. -/
theorem test_witness_invariant : Inv running ∧ ∃ t, step running = .next t :=
  ⟨⟨by decide, by decide, by decide, by decide, by unfold latchAgrees; decide, by decide, fun w h => nomatch h⟩, _, rfl⟩

/-- EveryReachedStateMeetsTheInvariant: an image with two bytes, a program, a reached state that is not the first. -/
theorem test_witness_image : Memory.wf [(0, 1), (0xFFFFFFFF, 2)]
    ∧ ∃ t, Reaches (State.resetWith prog3 [(0, 1), (0xFFFFFFFF, 2)] .haltRun) t ∧ t.pc = 4 :=
  ⟨by decide, _, .tail _ _ .refl rfl, by decide⟩

end Sys2Proof.Tests
end

section
/-! SUPPORT. The statements about the architectural state (spec/10_state.md): first the invariant and the statements it
gives, then the registers, then the statements that compare two runs, which go by the action of an instruction. -/

namespace Sys2Proof

/-! ### What is decoded is well formed -/

/-- Twelve bits as a signed number lie in the range of the I and S forms. -/
theorem imm12Ok_toInt (b : BitVec 12) : imm12Ok b.toInt = true := by
  have ⟨hlo, hhi⟩ := sext_range (n := 12) b.toNat (by decide)
  rw [← toInt_eq_sext] at hlo hhi
  simp only [imm12Ok, Bool.and_eq_true, decide_eq_true_eq]
  omega

/-- Thirteen bits, the lowest of them 0, lie in the even range of the B form. -/
theorem immBOk_toInt {b : BitVec 13} (h : b.toNat % 2 = 0) : immBOk b.toInt = true := by
  have ⟨hlo, hhi⟩ := sext_range (n := 13) b.toNat (by decide)
  have heven := sext_even (n := 13) b.toNat (by decide) h
  rw [← toInt_eq_sext] at hlo hhi heven
  simp only [immBOk, Bool.and_eq_true, decide_eq_true_eq]
  omega

/-- Twenty-one bits, the lowest of them 0, lie in the even range of the J form. -/
theorem immJOk_toInt {b : BitVec 21} (h : b.toNat % 2 = 0) : immJOk b.toInt = true := by
  have ⟨hlo, hhi⟩ := sext_range (n := 21) b.toNat (by decide)
  have heven := sext_even (n := 21) b.toNat (by decide) h
  rw [← toInt_eq_sext] at hlo hhi heven
  simp only [immJOk, Bool.and_eq_true, decide_eq_true_eq]
  omega

/-- The Decoder reads only instructions that some word encodes (30_encoding.md R98). -/
theorem wellFormed_of_decode {w : Word} {i : Instr} (h : decode w = .instr i) : i.wellFormed = true := by
  cases reading_of_decode h with
  | add | sub | srl | and | or | slt => rfl
  | addi | lw | jalr | sw => exact imm12Ok_toInt _
  | beq | bne | blt =>
    obtain ⟨-, -, -, -, hbit⟩ := immBBits_pieces w
    exact immBOk_toInt hbit
  | jal =>
    obtain ⟨-, -, -, -, hbit⟩ := immJBits_pieces w
    exact immJOk_toInt hbit

namespace Machine

/-! ### Register 0 and the parity of a pattern -/

@[simp] theorem readReg_zero (s : State) : readReg s 0 = 0 := rfl
@[simp] theorem xs_zero (s : State) : xs s 0 = 0 := rfl
@[simp] theorem writeReg_zero (s : State) (v : Int) : writeReg s 0 v = s := rfl

theorem toWord_even {n : Int} (h : n % 2 = 0) : (toWord n).toNat % 2 = 0 := by
  rw [toWord_toNat]
  unfold u32
  omega

/-! ### The invariant: how each operation keeps it -/

theorem Inv.writeReg {s : State} (h : Inv s) (rd : RegIdx) (v : Int) : Inv (writeReg s rd v) where
  memWf := by simpa using h.memWf
  memInitWf := by simpa using h.memInitWf
  zeroSlot := by simpa using h.zeroSlot
  pcEven := by simpa using h.pcEven
  latch := by simpa [latchAgrees] using h.latch
  noFaultStatus := by simpa using h.noFaultStatus

theorem Inv.setMem {s : State} (h : Inv s) {m : Memory} (hm : m.wf) : Inv (setMem s m) :=
  ⟨hm, h.memInitWf, h.zeroSlot, h.pcEven, h.latch, h.noFaultStatus⟩

/-- A running core completes at an even pc: the latch stays clear, as it must after `OK`. -/
theorem Inv.complete {s : State} (h : Inv s) (hrun : s.stopped = false) {n : Int} (hn : n % 2 = 0) :
    Inv (setStatus (setPc s n) .ok) where
  memWf := h.memWf
  memInitWf := h.memInitWf
  zeroSlot := h.zeroSlot
  pcEven := toWord_even hn
  latch := by simp [latchAgrees, hrun]
  noFaultStatus := by simp

/-- After a self-jump the latch is set under the policy `halt` only. -/
theorem Inv.selfJump {s u : State} (h : Inv s) (hrun : s.stopped = false) (hu : reportSelfJump s = .next u) :
    Inv u := by
  obtain ⟨hregs, hpc, hmem, -, hinit, hpol, hst, hcont, hhalt⟩ := reportSelfJump_next.mp hu
  have heven : pcPlus4 s % 2 = 0 := by rw [pcPlus4_parity]; exact_mod_cast h.pcEven
  refine ⟨hmem ▸ h.memWf, hinit ▸ h.memInitWf, hregs ▸ h.zeroSlot, hpc ▸ toWord_even heven, ?_, by simp [hst]⟩
  unfold latchAgrees
  cases hp : s.selfJumpPolicy with
  | continueRun => simp [hcont hp, hrun, hst, hpol, hp]
  | haltRun => simp [hhalt hp, hst, hpol, hp]

/-- `HALT_END` sets the status and the latch together. -/
theorem Inv.haltEnd {s : State} (h : Inv s) : Inv (setStopped (setStatus s .haltEnd)) :=
  ⟨h.memWf, h.memInitWf, h.zeroSlot, h.pcEven, by simp [latchAgrees], by simp⟩

/-- A well-formed instruction executed by a running core keeps the invariant. -/
theorem Inv.exec {i : Instr} {s u : State} (h : Inv s) (hrun : s.stopped = false) (hw : i.wellFormed = true)
    (hu : exec i s = .next u) : Inv u := by
  have heven {t : Int} (ht : t % 2 = s.pc.toNat % 2) : t % 2 = 0 := by
    rw [ht]; exact_mod_cast h.pcEven
  cases exec_effect hu with
  | write rd v t _ ht => exact (h.writeReg rd v).complete (by simpa) (heven (ht hw))
  | link rd rs1 imm =>
    refine (h.writeReg rd _).complete (by simpa) ?_
    rw [jalrTarget_toNat]
    omega
  | selfJump _ _ _ _ _ _ hj => exact h.selfJump hrun hj
  | store => exact (h.setMem (memWrite_wf h.memWf _ _ _)).complete hrun (heven (pcPlus4_parity s))
  | jump t _ ht => exact h.complete hrun (heven (ht hw))

/-- Settles O47: a step ends the run or executes a decoded, hence well-formed, instruction. -/
theorem everyStepKeepsTheInvariant : Obligations.EveryStepKeepsTheInvariant := by
  intro s t hinv hstep
  obtain ⟨hrun, ⟨-, rfl⟩ | ⟨w, i, -, hd, hx⟩⟩ := step_cases hstep
  · exact hinv.haltEnd
  · exact hinv.exec hrun (wellFormed_of_decode hd) hx

/-! ### Reset -/

theorem Inv.resetWith (prog : List Word) {image : Memory} (policy : SelfJumpPolicy) (h : image.wf) :
    Inv (State.resetWith prog image policy) :=
  ⟨h, h, rfl, rfl, by simp [latchAgrees, State.resetWith], by simp [State.resetWith]⟩

/-- Settles O46: the empty image is canonical. -/
theorem invariantHoldsAtReset : Obligations.InvariantHoldsAtReset :=
  Inv.resetWith [] .continueRun ⟨.nil, by simp⟩

/-- The registers after reset: the stack pointer, and 0 elsewhere. -/
theorem readReg_resetWith (prog : List Word) (image : Memory) (policy : SelfJumpPolicy) (r : RegIdx) :
    readReg (State.resetWith prog image policy) r = if r = 2 then Config.spReset else 0 := by
  by_cases h0 : r = 0
  · simp [h0]
  · have hget : resetRegs.get r = if r = 2 then Config.spReset else Config.regReset := by
      show resetRegs[r.val] = _
      simp only [resetRegs, Vector.getElem_set, Vector.getElem_replicate, Fin.ext_iff, eq_comm]
      rfl
    rw [readReg, if_neg h0]
    exact hget

/-- Settles O44: the registers by `readReg_resetWith`, every other field as `State.resetWith` sets it. -/
theorem resetGivesTheTabledValues : Obligations.ResetGivesTheTabledValues := by
  intro prog image policy
  have hx (r : RegIdx) : xs (State.resetWith prog image policy) r = if r = 2 then 380 else 0 := by
    unfold xs
    rw [readReg_resetWith]
    split <;> rfl
  exact ⟨hx 0, hx 2, fun r hr => by rw [hx, if_neg hr], rfl, fun _ => rfl, rfl, rfl, rfl, rfl⟩

/-! ### What the run is given is kept -/

theorem KeepsRun.trans {s t u : State} (hst : KeepsRun s t) (htu : KeepsRun t u) : KeepsRun s u :=
  ⟨htu.1.trans hst.1, htu.2.1.trans hst.2.1, htu.2.2.trans hst.2.2⟩

theorem exec_keepsRun {i : Instr} {s u : State} (h : exec i s = .next u) : KeepsRun s u := by
  cases exec_effect h with
  | write | link => simp [KeepsRun]
  | selfJump _ _ _ _ _ _ hj =>
    obtain ⟨-, -, -, hprog, hinit, hpol, -⟩ := reportSelfJump_next.mp hj
    exact ⟨hprog, hinit, hpol⟩
  | store | jump => exact ⟨rfl, rfl, rfl⟩

theorem step_keepsRun {s u : State} (h : step s = .next u) : KeepsRun s u := by
  obtain ⟨-, ⟨-, rfl⟩ | ⟨_, _, -, -, hx⟩⟩ := step_cases h
  · exact ⟨rfl, rfl, rfl⟩
  · exact exec_keepsRun hx

/-- Settles O43: fetch reads the program alone, which every step keeps. -/
theorem noStepWritesTheProgram : Obligations.NoStepWritesTheProgram := by
  intro s t h
  have hk := step_keepsRun h
  exact ⟨hk, fun p => by rw [hk.1]⟩

/-! ### Every state a run reaches -/

/-- What holds at the start and is kept by every step holds of every reached state. -/
theorem Reaches.induct {s t : State} {P : State → Prop} (h : Reaches s t) (base : P s)
    (keep : ∀ t u, P t → step t = .next u → P u) : P t := by
  induction h with
  | refl => exact base
  | tail t u _ hstep ih => exact keep t u ih hstep

/-- Settles O48, by induction over the run with `everyStepKeepsTheInvariant`. -/
theorem everyReachedStateMeetsTheInvariant : Obligations.EveryReachedStateMeetsTheInvariant := by
  intro prog image policy t hwf hreach
  exact hreach.induct (P := fun t => Inv t ∧ KeepsRun (State.resetWith prog image policy) t)
    ⟨Inv.resetWith prog policy hwf, rfl, rfl, rfl⟩
    fun t u ⟨hinv, hkeep⟩ hstep => ⟨everyStepKeepsTheInvariant t u hinv hstep, hkeep.trans (step_keepsRun hstep)⟩

/-! ### Registers -/

/-- Equal signed values are equal patterns. -/
theorem xs_eq_iff {s t : State} {i j : RegIdx} : xs s i = xs t j ↔ readReg s i = readReg t j := BitVec.toInt_inj

theorem xs_writeReg_ne (s : State) {i j : RegIdx} (v : Int) (h : j ≠ i) : xs (writeReg s i v) j = xs s j := by
  rw [setsRegister_writeReg, if_neg fun h' => h h'.1]

/-- Settles O15: a register's value is its own `s32`, whose range is that of a signed 32-bit number. -/
theorem registersHoldSigned32BitValues : Obligations.RegistersHoldSigned32BitValues := by
  intro s i
  have ⟨hlo, hhi⟩ := s32_range (xs s i)
  have hs : s32 (xs s i) = xs s i := by unfold xs; rw [← toWord_toInt, toWord_of_toInt]
  rw [hs] at hlo hhi
  exact ⟨hlo, Int.le_sub_one_of_lt hhi, xu_eq_u32 s i, fun j v hj => xs_writeReg_ne s v hj⟩

/-- Settles O17: read after write, and that a pattern is determined by its signed value. -/
theorem registerWriteReducesTo32Bits : Obligations.RegisterWriteReducesTo32Bits :=
  ⟨setsRegister_writeReg, fun _ _ _ => xs_eq_iff⟩

/-! ### An instruction as one action on the state

Each instruction computes operands from the state and then does one of four things. Splitting the two lets a comparison
of two runs be made once per action, not once per instruction. -/

/-- What an instruction does once its operands are computed. -/
inductive Action where
  /-- Write `v` to `rd` and complete at `n`. -/
  | write (rd : RegIdx) (v n : Int)
  /-- Store the word of `v` at `a` and complete at `n`. -/
  | store (a : Word) (v n : Int)
  /-- Complete at `n`. -/
  | jump (n : Int)
  /-- Report a self-jump. -/
  | selfJump

/-- The action carried out. -/
def Action.run (s : State) : Action → Result
  | .write rd v n => complete (writeReg s rd v) n
  | .store a v n => complete (setMem s (memWrite s.mem a .word v)) n
  | .jump n => complete s n
  | .selfJump => reportSelfJump s

/-- The action of each instruction, its operands read from the state before any write (40_step_cycle.md R132). -/
def action (s : State) : Instr → Action
  | .add rd rs1 rs2 => .write rd (xs s rs1 + xs s rs2) (pcPlus4 s)
  | .sub rd rs1 rs2 => .write rd (xs s rs1 - xs s rs2) (pcPlus4 s)
  | .srl rd rs1 rs2 => .write rd (xu s rs1 >>> shiftAmount s rs2 : Nat) (pcPlus4 s)
  | .and rd rs1 rs2 => .write rd (readReg s rs1 &&& readReg s rs2).toInt (pcPlus4 s)
  | .or rd rs1 rs2 => .write rd (readReg s rs1 ||| readReg s rs2).toInt (pcPlus4 s)
  | .slt rd rs1 rs2 => .write rd (if condLt s rs1 rs2 then 1 else 0) (pcPlus4 s)
  | .addi rd rs1 imm => .write rd (xs s rs1 + imm) (pcPlus4 s)
  | .lw rd rs1 imm => .write rd (memRead s.mem (effectiveAddr s rs1 imm) .word) (pcPlus4 s)
  | .jalr rd rs1 imm =>
    if jalrTarget s rs1 imm = s.pc then .selfJump else .write rd (pcPlus4 s) ((jalrTarget s rs1 imm).toNat : Int)
  | .sw rs1 rs2 imm => .store (effectiveAddr s rs1 imm) (xu s rs2) (pcPlus4 s)
  | .beq rs1 rs2 imm => .jump (if condEq s rs1 rs2 then pcRelative s imm else pcPlus4 s)
  | .bne rs1 rs2 imm => .jump (if condNe s rs1 rs2 then pcRelative s imm else pcPlus4 s)
  | .blt rs1 rs2 imm => .jump (if condLt s rs1 rs2 then pcRelative s imm else pcPlus4 s)
  | .jal rd imm => .write rd (pcPlus4 s) (pcRelative s imm)

/-- To execute an instruction is to carry out its action. -/
theorem exec_eq_run (i : Instr) (s : State) : exec i s = (action s i).run s := by
  cases i with
  | jalr rd rs1 imm => rw [exec, execJalr, action]; split <;> rfl
  | add | sub | srl | and | or | slt | addi | lw | sw | beq | bne | blt | jal => rfl

/-! ### The next pc -/

/-- The pc an action sets, before reduction. -/
def Action.nextPc (s : State) : Action → Int
  | .write _ _ n => n
  | .store _ _ n => n
  | .jump n => n
  | .selfJump => pcPlus4 s

theorem Action.run_pc {a : Action} {s u : State} (h : a.run s = .next u) : u.pc = toWord (a.nextPc s) := by
  cases a with
  | write | store | jump => rw [complete_next.mp h]; rfl
  | selfJump => exact (reportSelfJump_next.mp h).2.1

/-- The next pc of an instruction's action is its entry in the table of 10_state.md R27. -/
theorem nextPc_action (s : State) (i : Instr) : (action s i).nextPc s = nextPcTable s i := by
  cases i with
  | jalr rd rs1 imm =>
    have hself : jalrTarget s rs1 imm = s.pc ↔ u32 (xs s rs1 + imm) / 2 * 2 = s.pc.toNat := by
      rw [← BitVec.toNat_inj, jalrTarget_toNat]
    simp only [action, nextPcTable, hself]
    split
    · rfl
    · rw [← jalrTarget_toNat]; rfl
  | beq | bne | blt => simp [action, nextPcTable, Action.nextPc, condEq, condNe, condLt, pcRelative, pcPlus4]
  | add | sub | srl | and | or | slt | addi | lw | sw | jal => rfl

/-- Settles O42: the pc set by the instruction's action, reduced to 32 bits. -/
theorem nextPcFollowsTheTable : Obligations.NextPcFollowsTheTable := by
  intro i s t h
  rw [exec_eq_run] at h
  rw [Action.run_pc h, toWord_toNat, nextPc_action]

/-! ### The destination register -/

/-- The register an action writes, if any. -/
def Action.dest : Action → Option RegIdx
  | .write rd _ _ => some rd
  | .store _ _ _ => none
  | .jump _ => none
  | .selfJump => none

/-- The action with another destination register, where it writes one. -/
def Action.withDest (rd : RegIdx) : Action → Action
  | .write _ v n => .write rd v n
  | .store a v n => .store a v n
  | .jump n => .jump n
  | .selfJump => .selfJump

/-- An instruction writes the register it names, unless it reports a self-jump. -/
theorem dest_action {s : State} {i : Instr} (h : action s i ≠ .selfJump) : (action s i).dest = i.dest := by
  cases i with
  | jalr rd rs1 imm =>
    by_cases hj : jalrTarget s rs1 imm = s.pc
    · exact absurd (by simp [action, hj]) h
    · simp [action, hj, Action.dest, Instr.dest]
  | add | sub | srl | and | or | slt | addi | lw | sw | beq | bne | blt | jal => rfl

theorem action_withDest (s : State) (i : Instr) (rd : RegIdx) :
    action s (withDest rd i) = (action s i).withDest rd := by
  cases i with
  | jalr => simp only [withDest, action]; split <;> rfl
  | add | sub | srl | and | or | slt | addi | lw | sw | beq | bne | blt | jal => rfl

/-- With register 0 as destination an action has its other effects only. -/
theorem Action.run_withDest_zero {a : Action} {rd : RegIdx} {s u : State} (h : (a.withDest rd).run s = .next u) :
    (a.withDest 0).run s = .next { u with regs := s.regs } := by
  cases a with
  | write _ v n =>
    obtain rfl := complete_next.mp h
    refine complete_next.mpr ?_
    simp [setStatus, setPc]
  | store | jump => obtain rfl := complete_next.mp h; rfl
  | selfJump => rw [← (reportSelfJump_next.mp h).1]; exact h

/-- Settles O16: the action with register 0 as destination differs in the register file only. -/
theorem registerZeroIsHardwired : Obligations.RegisterZeroIsHardwired := by
  refine ⟨xs_zero, writeReg_zero, fun i rd s t h => ?_⟩
  rw [exec_eq_run, action_withDest] at h ⊢
  exact Action.run_withDest_zero h

/-! ### Data memory -/

/-- What an action makes of a data memory. -/
def Action.memAfter (m : Memory) : Action → Memory
  | .write _ _ _ => m
  | .store a v _ => memWrite m a .word v
  | .jump _ => m
  | .selfJump => m

theorem Action.run_mem {a : Action} {s u : State} (h : a.run s = .next u) : u.mem = a.memAfter s.mem := by
  cases a with
  | write => rw [complete_next.mp h]; simp [memAfter]
  | store | jump => rw [complete_next.mp h]; rfl
  | selfJump => exact (reportSelfJump_next.mp h).2.2.1

theorem memAfter_action {i : Instr} (s : State) (m : Memory) (h : i.mnemonic ≠ "sw") : (action s i).memAfter m = m := by
  cases i with
  | jalr => simp only [action]; split <;> rfl
  | sw => exact absurd rfl h
  | add | sub | srl | and | or | slt | addi | lw | beq | bne | blt | jal => rfl

/-- Only `lw` reads data memory to find out what to do. -/
theorem action_setMem {i : Instr} (s : State) (m : Memory) (h : i.mnemonic ≠ "lw") :
    action (setMem s m) i = action s i := by
  cases i with
  | lw => exact absurd rfl h
  | add | sub | srl | and | or | slt | addi | jalr | sw | beq | bne | blt | jal => rfl

/-- Carried out over another data memory, an action changes that one and does the same to everything else. -/
theorem Action.run_setMem {a : Action} {s u : State} (m : Memory) (h : a.run s = .next u) :
    a.run (setMem s m) = .next (setMem u (a.memAfter m)) := by
  cases a with
  | write rd v n =>
    obtain rfl := complete_next.mp h
    refine complete_next.mpr ?_
    unfold writeReg
    split <;> rfl
  | store | jump => obtain rfl := complete_next.mp h; rfl
  | selfJump =>
    obtain ⟨hregs, hpc, -, hprog, hinit, hpol, hst, hcont, hhalt⟩ := reportSelfJump_next.mp h
    exact reportSelfJump_next.mpr ⟨hregs, hpc, rfl, hprog, hinit, hpol, hst, hcont, hhalt⟩

/-- Settles O23: no action but that of `lw` depends on data memory, and only a store changes it. -/
theorem dataMemoryIsReadByLwAndWrittenBySw : Obligations.DataMemoryIsReadByLwAndWrittenBySw := by
  refine ⟨fun _ => rfl, fun _ _ _ _ => rfl, fun i s t hsw h a => ?_, fun i s t m hlw h => ?_⟩
  · rw [exec_eq_run] at h
    rw [Action.run_mem h, memAfter_action s _ hsw]
  · rw [exec_eq_run] at h
    refine ⟨(action s i).memAfter m, ?_, memAfter_action s m, ?_⟩
    · show exec i (setMem s m) = .next (setMem t _)
      rw [exec_eq_run, action_setMem s m hlw]
      exact Action.run_setMem m h
    · rintro rs1 rs2 imm rfl
      rfl

/-! ### The sources determine the effect -/

section Sources
variable {s t : State}

theorem cond_congr {rs1 rs2 : RegIdx} (h1 : readReg s rs1 = readReg t rs1) (h2 : readReg s rs2 = readReg t rs2) :
    condEq s rs1 rs2 = condEq t rs1 rs2 ∧ condNe s rs1 rs2 = condNe t rs1 rs2 ∧
      condLt s rs1 rs2 = condLt t rs1 rs2 := by
  unfold condEq condNe condLt
  rw [xs_eq_iff.mpr h1, xs_eq_iff.mpr h2]
  exact ⟨rfl, rfl, rfl⟩

/-- States that agree on an instruction's sources, the pc and the bytes of data memory take the same action. -/
theorem action_congr {i : Instr} (hr : ∀ r ∈ i.sources, readReg s r = readReg t r) (hpc : s.pc = t.pc)
    (hm : ∀ a, readByte s.mem a = readByte t.mem a) : action s i = action t i := by
  have hload (a : Word) : memRead s.mem a .word = memRead t.mem a .word := loadBytes_congr hm a _
  cases i with
  | add | sub | srl | and | or | sw =>
    simp only [Instr.sources, List.forall_mem_cons] at hr
    obtain ⟨h1, h2, -⟩ := hr
    simp only [action, xs, xu, effectiveAddr, shiftAmount, pcPlus4, h1, h2, hpc]
  | slt | beq | bne | blt =>
    simp only [Instr.sources, List.forall_mem_cons] at hr
    obtain ⟨h1, h2, -⟩ := hr
    obtain ⟨heq, hne, hlt⟩ := cond_congr h1 h2
    simp only [action, pcPlus4, pcRelative, heq, hne, hlt, hpc]
  | addi | lw | jalr =>
    have h1 := hr _ (List.mem_singleton_self _)
    simp [action, xs, effectiveAddr, jalrTarget, pcPlus4, h1, hpc, hload]
  | jal => simp only [action, pcPlus4, pcRelative, hpc]

/-- An action writes no register but its destination. -/
theorem Action.run_keeps_other {a : Action} {r : RegIdx} {u : State} (h : a.run s = .next u) (hr : a.dest ≠ some r) :
    xs u r = xs s r := by
  cases a with
  | write rd v n => rw [complete_next.mp h]; exact xs_writeReg_ne s v fun e => hr (e ▸ rfl)
  | store | jump => rw [complete_next.mp h]; rfl
  | selfJump => exact xs_congr _ _ (reportSelfJump_next.mp h).1 r

/-- What an action writes to its destination does not depend on the state it is carried out on. -/
theorem Action.run_dest_congr {a : Action} {r : RegIdx} {s' t' : State} (hs : a.run s = .next s')
    (ht : a.run t = .next t') (hr : a.dest = some r) : xs s' r = xs t' r := by
  cases a with
  | write rd v n =>
    obtain rfl : rd = r := Option.some.inj hr
    rw [complete_next.mp hs, complete_next.mp ht]
    simp only [xs_setStatus, xs_setPc]
    rw [setsRegister_writeReg, setsRegister_writeReg]
    by_cases h0 : rd = 0 <;> simp [h0]
  | store | jump | selfJump => cases hr

/-- One action on two states that agree on the latch and the policy gives the same status and the same latch. -/
theorem Action.run_status_congr {a : Action} {s' t' : State} (hs : a.run s = .next s') (ht : a.run t = .next t')
    (hstop : s.stopped = t.stopped) (hpol : s.selfJumpPolicy = t.selfJumpPolicy) :
    s'.status = t'.status ∧ s'.stopped = t'.stopped := by
  cases a with
  | write | store | jump => rw [complete_next.mp hs, complete_next.mp ht]; simpa using hstop
  | selfJump =>
    obtain ⟨-, -, -, -, -, -, hst, hcont, hhalt⟩ := reportSelfJump_next.mp hs
    obtain ⟨-, -, -, -, -, -, hst', hcont', hhalt'⟩ := reportSelfJump_next.mp ht
    refine ⟨hst.trans hst'.symm, ?_⟩
    cases hp : s.selfJumpPolicy with
    | continueRun => rw [hcont hp, hcont' (hpol ▸ hp), hstop]
    | haltRun => rw [hhalt hp, hhalt' (hpol ▸ hp)]

theorem Action.nextPc_congr (a : Action) (hpc : s.pc = t.pc) : a.nextPc s = a.nextPc t := by
  unfold nextPc pcPlus4
  rw [hpc]

/-- Memories that read alike read alike after an action. -/
theorem Action.memAfter_congr (a : Action) {m m' : Memory} (h : ∀ c, readByte m c = readByte m' c) (c : Word) :
    readByte (a.memAfter m) c = readByte (a.memAfter m') c := by
  cases a with
  | store => exact readByte_storeBytes_congr h _ _ _ c
  | write | jump | selfJump => exact h c

theorem Action.run_selfJump_status {u : State} (h : Action.selfJump.run s = .next u) : u.status = some .selfJump := by
  obtain ⟨-, -, -, -, -, -, hst, -⟩ := reportSelfJump_next.mp h
  exact hst

end Sources

/-- An instruction writes no register but the one it names. -/
theorem exec_keeps_other {i : Instr} {s u : State} {r : RegIdx} (h : exec i s = .next u) (hr : i.dest ≠ some r) :
    xs u r = xs s r := by
  rw [exec_eq_run] at h
  refine Action.run_keeps_other h ?_
  by_cases hself : action s i = .selfJump
  · rw [hself]; nofun
  · rwa [dest_action hself]

/-- Settles O19: the two states take the same action. -/
theorem sourceRegistersDetermineTheEffect : Obligations.SourceRegistersDetermineTheEffect := by
  intro i s t s' t' hr hpc hstop hpol hm hs ht
  have hother (r : RegIdx) (hne : i.dest ≠ some r) : xs s' r = xs s r ∧ xs t' r = xs t r :=
    ⟨exec_keeps_other hs hne, exec_keeps_other ht hne⟩
  have hact : action s i = action t i := action_congr (fun r hi => xs_eq_iff.mp (hr r hi)) hpc hm
  rw [exec_eq_run] at hs ht
  rw [← hact] at ht
  obtain ⟨hst, hlatch⟩ := Action.run_status_congr hs ht hstop hpol
  refine ⟨?_, hst, hlatch, fun a => ?_, fun r hd hok => ?_, hother⟩
  · rw [Action.run_pc hs, Action.run_pc ht, Action.nextPc_congr _ hpc]
  · rw [Action.run_mem hs, Action.run_mem ht]
    exact Action.memAfter_congr _ hm a
  · have hne : action s i ≠ .selfJump := by
      intro hself
      rw [hself] at hs
      simp [Action.run_selfJump_status hs] at hok
    exact Action.run_dest_congr hs ht ((dest_action hne).trans hd)

/-! ### A stopped core -/

/-- A recognized instruction answers a next state (40_step_cycle.md R139). -/
theorem exec_total (i : Instr) (s : State) : ∃ u, exec i s = .next u := by
  rw [exec_eq_run]
  cases action s i with
  | write | store | jump => exact ⟨_, rfl⟩
  | selfJump => exact reportSelfJump_total s

/-- What is fetched never makes the step answer the fault of a stopped core. -/
theorem stepFetched_ne_stopped (s : State) (f : Fetched) : stepFetched s f ≠ .fault .stopped := by
  cases f with
  | atEnd | noInstr => nofun
  | word w =>
    rcases decode_total w with ⟨i, hd⟩ | hd
    · obtain ⟨u, hu⟩ := exec_total i s
      simp [stepFetched, hd, hu]
    · simp [stepFetched, hd, raiseUnrecognized]

theorem step_stopped_iff (s : State) : step s = .fault .stopped ↔ s.stopped = true := by
  unfold step stepCycle
  split
  · simp [*]
  · simp [*, stepFetched_ne_stopped]

/-- Settles O40: a set latch is the one cause of the fault `stopped`, so a run cannot leave such a state. -/
theorem stoppedCoreTakesNoStepUntilReset : Obligations.StoppedCoreTakesNoStepUntilReset := by
  refine ⟨step_stopped_iff, fun s t hstop hreach => ?_, fun _ => rfl⟩
  refine hreach.induct (P := fun t => t = s) rfl fun t u ht hstep => ?_
  rw [ht, (step_stopped_iff s).mpr hstop] at hstep
  cases hstep

end Machine

end Sys2Proof
end

section
/-! SUPPORT. The statements about memory (spec/20_memory.md): the accesses of several bytes from their bytes, then
instruction fetch from a program in which a word was placed. -/

namespace Sys2Proof.Machine

/-! ### The addresses of an access -/

/-- The address of byte `k` of an access, reduced once or twice to 32 bits (decision D4). -/
theorem toWord_u32_add (addr : Int) (k : Nat) : toWord (u32 addr + k) = toWord addr + BitVec.ofNat 32 k := by
  rw [toWord_add, ← toWord_toNat, toWord_of_toNat]
  rfl

/-- No access is longer than the address space, so its bytes stand at different addresses. -/
theorem AccessSize.bytes_le_space (sz : AccessSize) : sz.bytes ≤ 2 ^ 32 := by
  cases sz <;> decide

/-- What `MemWrite` stores of `v`, as an integer: the residue is not negative. -/
theorem toNat_emod_two_pow (v : Int) (n : Nat) : ((v % 2 ^ n).toNat : Int) = v % 2 ^ n :=
  Int.toNat_of_nonneg (Int.emod_nonneg v (by positivity))

/-! ### Reading -/

/-- A read of `n` bytes is the sum of the bytes, each weighted by its place (20_memory.md R53). -/
theorem loadBytes_eq_sum (m : Memory) (a : Word) (n : Nat) :
    loadBytes m a n
      = ((List.range n).map fun k => (readByte m (a + BitVec.ofNat 32 k)).toNat * 2 ^ (8 * k)).sum := by
  induction n generalizing a with
  | zero => rfl
  | succ n ih =>
    have hweight (k : Nat) (b : Byte) : b.toNat * 2 ^ (8 * (k + 1)) = 256 * (b.toNat * 2 ^ (8 * k)) := by ring
    simp only [loadBytes, ih, List.range_succ_eq_map, List.map_cons, List.map_map, List.sum_cons, Function.comp_def,
      Nat.succ_eq_add_one, add_ofNat_succ, hweight, List.sum_map_mul_left]
    simp

/-- Settles O20: the sum over the bytes of the access, each address reduced to 32 bits. -/
theorem memReadSumsItsBytes : Obligations.MemReadSumsItsBytes := by
  intro m addr sz
  simp only [toWord_u32_add]
  exact loadBytes_eq_sum m (toWord addr) sz.bytes

/-! ### Writing -/

/-- Settles O21: inside by `readByte_storeBytes_inside`, outside by `readByte_storeBytes_outside`. -/
theorem memWriteSetsItsBytesOnly : Obligations.MemWriteSetsItsBytesOnly := by
  intro m addr sz v
  simp only [toWord_u32_add]
  refine ⟨fun k hk => ?_, fun a ha => readByte_storeBytes_outside m _ _ _ a ha⟩
  rw [memWrite, readByte_storeBytes_inside m _ _ hk sz.bytes_le_space, BitVec.toNat_ofNat, Nat.pow_mul]

/-! ### Reading what was written -/

/-- A read of the `n` bytes that a store wrote gives what was stored, modulo `256^n`: no byte of the access overwrites
another while the access is no longer than the address space. -/
theorem loadBytes_storeBytes_same (m : Memory) (a : Word) {n : Nat} (u : Nat) (hn : n ≤ 2 ^ 32) :
    loadBytes (storeBytes m a n u) a n = u % 256 ^ n := by
  induction n generalizing m a u with
  | zero => simp [loadBytes, Nat.mod_one]
  | succ n ih =>
    have hfirst : readByte (storeBytes m a (n + 1) u) a = BitVec.ofNat 8 u := by
      simpa using readByte_storeBytes_inside m a u (Nat.succ_pos n) hn
    have hrest : loadBytes (storeBytes m a (n + 1) u) (a + 1) n = u / 256 % 256 ^ n := ih _ _ _ (by omega)
    rw [loadBytes, hfirst, hrest, BitVec.toNat_ofNat, pow_succ' 256 n, Nat.mod_mul]

/-- Settles O22: the stored value is already below `2^(8n)`. -/
theorem loadAfterStoreGivesTheValue : Obligations.LoadAfterStoreGivesTheValue := by
  intro m a sz v
  rw [memRead, memWrite, loadBytes_storeBytes_same m a _ sz.bytes_le_space]
  push_cast
  rw [toNat_emod_two_pow, pow_mul]
  exact Int.emod_emod v (256 ^ sz.bytes)

/-! ### Fetching a placed word -/

/-- The word placed at an index is the one the program holds there, also where the program was shorter. -/
theorem getElem?_placeWord (prog : List Word) (i : Nat) (w : Word) : (placeWord prog i w)[i]? = some w := by
  refine List.getElem?_set_self ?_
  rw [List.length_append, List.length_replicate]
  omega

theorem slotAddr_toNat (p : Word) : (slotAddr p).toNat = 4 * (p.toNat / 4) := by
  rw [slotAddr, BitVec.toNat_ofNat]
  have := p.isLt
  omega

/-- A core that runs executes what the word it fetches decodes to (40_step_cycle.md R130). -/
theorem step_of_fetch {s : State} {w : Word} {i : Instr} (hrun : s.stopped = false) (hf : iFetch s.prog s.pc = .word w)
    (hd : decode w = .instr i) : step s = exec i s := by
  simp [step, stepCycle, stepFetched, hrun, hf, hd]

theorem iFetch_withFetchWord (s : State) (w : Word) :
    iFetch (s.withFetchWord 32 w.toNat).prog (s.withFetchWord 32 w.toNat).pc = .word w := by
  have hpc : (s.withFetchWord 32 w.toNat).pc.toNat = 4 * (s.pc.toNat / 4) := slotAddr_toNat s.pc
  have hslot : 4 * (s.pc.toNat / 4) / 4 = s.pc.toNat / 4 := by omega
  rw [iFetch_word, hpc, hslot, State.withFetchWord, tableWord_toNat]
  exact ⟨by omega, getElem?_placeWord _ _ w⟩

/-- Settles O36: the core built runs, and fetches the placed word. -/
theorem placedWordIsTheNextOneRun : Obligations.PlacedWordIsTheNextOneRun := by
  intro s w i hd
  exact step_of_fetch rfl (iFetch_withFetchWord s w) hd

end Sys2Proof.Machine
end

section
/-! SUPPORT. The statements about the Decoder and the encoder (spec/30_encoding.md): first the two round trips, then
the fields and the immediates of a decoded word, then the opcode table and the words outside it. -/

namespace Sys2Proof

/-! ### The ranges of the immediates -/

theorem imm12Ok_iff {imm : Int} : imm12Ok imm = true ↔ -2048 ≤ imm ∧ imm ≤ 2047 := by
  simp [imm12Ok]

theorem immBOk_iff {imm : Int} : immBOk imm = true ↔ imm % 2 = 0 ∧ -4096 ≤ imm ∧ imm ≤ 4094 := by
  simp only [immBOk, Bool.and_eq_true, decide_eq_true_eq]
  tauto

theorem immJOk_iff {imm : Int} : immJOk imm = true ↔ imm % 2 = 0 ∧ -1048576 ≤ imm ∧ imm ≤ 1048574 := by
  simp only [immJOk, Bool.and_eq_true, decide_eq_true_eq]
  tauto

/-! ### Decoding an encoded word -/

/-- A pattern whose number is that of `n + 1` bits of an even `imm`, lowest bit dropped, reads as `imm`. -/
theorem toInt_of_toNat_ofInt_even {n : Nat} {b : BitVec (n + 1)} {imm : Int} (heven : imm % 2 = 0)
    (hlo : -2 ^ n ≤ imm) (hhi : imm < 2 ^ n) (hb : b.toNat = (BitVec.ofInt (n + 1) imm).toNat / 2 * 2) :
    b.toInt = imm := by
  have hbit : (BitVec.ofInt (n + 1) imm).toNat % 2 = 0 := by
    have hmod : imm % (2 ^ (n + 1) : Nat) % 2 = 0 := by
      rw [Int.emod_emod_of_dvd imm (by exact_mod_cast dvd_pow_self 2 n.succ_ne_zero), heven]
    rw [BitVec.toNat_ofInt]
    omega
  have hsame : b = BitVec.ofInt (n + 1) imm := BitVec.eq_of_toNat_eq (by omega)
  rw [hsame]
  exact BitVec.toInt_ofInt_eq_self (Nat.succ_pos n) hlo hhi

section Immediates
variable {imm : Int} (rs2 rs1 rd : RegIdx) (f3 : BitVec 3) (op : BitVec 7)

theorem immI_encodeI (h : imm12Ok imm = true) : immI (encodeI (BitVec.ofInt 12 imm) rs1 f3 rd op) = imm := by
  obtain ⟨hlo, hhi⟩ := imm12Ok_iff.mp h
  obtain ⟨-, -, -, -, hbits⟩ := fields_encodeI (BitVec.ofInt 12 imm) rs1 f3 rd op
  rw [immI, hbits]
  exact BitVec.toInt_ofInt_eq_self (by decide) hlo (by omega)

theorem immS_encodeS (h : imm12Ok imm = true) : immS (encodeS (BitVec.ofInt 12 imm) rs2 rs1 f3 op) = imm := by
  obtain ⟨hlo, hhi⟩ := imm12Ok_iff.mp h
  obtain ⟨-, -, -, -, hbits⟩ := fields_encodeS (BitVec.ofInt 12 imm) rs2 rs1 f3 op
  rw [immS, hbits]
  exact BitVec.toInt_ofInt_eq_self (by decide) hlo (by omega)

theorem immB_encodeB (h : immBOk imm = true) : immB (encodeB (BitVec.ofInt 13 imm) rs2 rs1 f3 op) = imm := by
  obtain ⟨heven, hlo, hhi⟩ := immBOk_iff.mp h
  obtain ⟨-, -, -, -, hbits⟩ := fields_encodeB (BitVec.ofInt 13 imm) rs2 rs1 f3 op
  exact toInt_of_toNat_ofInt_even heven hlo (by omega) hbits

theorem immJ_encodeJ (h : immJOk imm = true) : immJ (encodeJ (BitVec.ofInt 21 imm) rd op) = imm := by
  obtain ⟨heven, hlo, hhi⟩ := immJOk_iff.mp h
  obtain ⟨-, -, hbits⟩ := fields_encodeJ (BitVec.ofInt 21 imm) rd op
  exact toInt_of_toNat_ofInt_even heven hlo (by omega) hbits

end Immediates

/-- The Decoder reads the word of a well-formed instruction as that instruction. -/
theorem reading_encode {i : Instr} (h : i.wellFormed = true) : Reading (encode i) i := by
  cases i with
  | add rd rs1 rs2 => simpa [encode, fields_encodeR] using Reading.add (w := encode (.add rd rs1 rs2))
  | sub rd rs1 rs2 => simpa [encode, fields_encodeR] using Reading.sub (w := encode (.sub rd rs1 rs2))
  | srl rd rs1 rs2 => simpa [encode, fields_encodeR] using Reading.srl (w := encode (.srl rd rs1 rs2))
  | and rd rs1 rs2 => simpa [encode, fields_encodeR] using Reading.and (w := encode (.and rd rs1 rs2))
  | or rd rs1 rs2 => simpa [encode, fields_encodeR] using Reading.or (w := encode (.or rd rs1 rs2))
  | slt rd rs1 rs2 => simpa [encode, fields_encodeR] using Reading.slt (w := encode (.slt rd rs1 rs2))
  | addi rd rs1 imm =>
    simpa [encode, fields_encodeI, immI_encodeI rs1 rd _ _ h] using Reading.addi (w := encode (.addi rd rs1 imm))
  | lw rd rs1 imm =>
    simpa [encode, fields_encodeI, immI_encodeI rs1 rd _ _ h] using Reading.lw (w := encode (.lw rd rs1 imm))
  | jalr rd rs1 imm =>
    simpa [encode, fields_encodeI, immI_encodeI rs1 rd _ _ h] using Reading.jalr (w := encode (.jalr rd rs1 imm))
  | sw rs1 rs2 imm =>
    simpa [encode, fields_encodeS, immS_encodeS rs2 rs1 _ _ h] using Reading.sw (w := encode (.sw rs1 rs2 imm))
  | beq rs1 rs2 imm =>
    simpa [encode, fields_encodeB, immB_encodeB rs2 rs1 _ _ h] using Reading.beq (w := encode (.beq rs1 rs2 imm))
  | bne rs1 rs2 imm =>
    simpa [encode, fields_encodeB, immB_encodeB rs2 rs1 _ _ h] using Reading.bne (w := encode (.bne rs1 rs2 imm))
  | blt rs1 rs2 imm =>
    simpa [encode, fields_encodeB, immB_encodeB rs2 rs1 _ _ h] using Reading.blt (w := encode (.blt rs1 rs2 imm))
  | jal rd imm => simpa [encode, fields_encodeJ, immJ_encodeJ rd _ h] using Reading.jal (w := encode (.jal rd imm))

/-- Settles O32, by what the Decoder reads from each encoded word. -/
theorem decodeOfEncodeIsTheInstruction : Obligations.DecodeOfEncodeIsTheInstruction :=
  fun _ h => decode_of_reading (reading_encode h)

/-! ### Encoding a decoded word: each format puts the fields of a word back where they stood

The equations for the pieces of an immediate are cleared once used: `omega` does not get through them. -/

theorem encodeR_fields (w : Word) :
    encodeR (funct7 w) (rs2Field w) (rs1Field w) (funct3 w) (rdField w) (opcode w) = w := by
  refine BitVec.eq_of_toNat_eq ?_
  rw [encodeR_toNat, funct7_toNat, rs2Field_val, rs1Field_val, funct3_toNat, rdField_val, opcode_toNat]
  omega

theorem encodeI_fields (w : Word) : encodeI (immIBits w) (rs1Field w) (funct3 w) (rdField w) (opcode w) = w := by
  refine BitVec.eq_of_toNat_eq ?_
  rw [encodeI_toNat, immIBits_toNat, rs1Field_val, funct3_toNat, rdField_val, opcode_toNat]
  omega

theorem encodeS_fields (w : Word) : encodeS (immSBits w) (rs2Field w) (rs1Field w) (funct3 w) (opcode w) = w := by
  obtain ⟨h1, h2⟩ := immSBits_pieces w
  refine BitVec.eq_of_toNat_eq ?_
  rw [encodeS_toNat, h1, h2, rs2Field_val, rs1Field_val, funct3_toNat, opcode_toNat]
  clear h1 h2
  omega

theorem encodeB_fields (w : Word) : encodeB (immBBits w) (rs2Field w) (rs1Field w) (funct3 w) (opcode w) = w := by
  obtain ⟨h1, h2, h3, h4, -⟩ := immBBits_pieces w
  refine BitVec.eq_of_toNat_eq ?_
  rw [encodeB_toNat, h1, h2, h3, h4, rs2Field_val, rs1Field_val, funct3_toNat, opcode_toNat]
  clear h1 h2 h3 h4
  omega

theorem encodeJ_fields (w : Word) : encodeJ (immJBits w) (rdField w) (opcode w) = w := by
  obtain ⟨h1, h2, h3, h4, -⟩ := immJBits_pieces w
  refine BitVec.eq_of_toNat_eq ?_
  rw [encodeJ_toNat, h1, h2, h3, h4, rdField_val, opcode_toNat]
  clear h1 h2 h3 h4
  omega

/-- What the Decoder reads from a word encodes to the word. -/
theorem encode_of_reading {w : Word} {i : Instr} (h : Reading w i) : encode i = w := by
  cases h with
  | add ho h3 h7 | sub ho h3 h7 | srl ho h3 h7 | and ho h3 h7 | or ho h3 h7 | slt ho h3 h7 =>
    simpa only [encode, ho, h3, h7] using encodeR_fields w
  | addi ho h3 | lw ho h3 | jalr ho h3 => simpa only [encode, immI, BitVec.ofInt_toInt, ho, h3] using encodeI_fields w
  | sw ho h3 => simpa only [encode, immS, BitVec.ofInt_toInt, ho, h3] using encodeS_fields w
  | beq ho h3 | bne ho h3 | blt ho h3 =>
    simpa only [encode, immB, BitVec.ofInt_toInt, ho, h3] using encodeB_fields w
  | jal ho => simpa only [encode, immJ, BitVec.ofInt_toInt, ho] using encodeJ_fields w

/-- Settles O33, by putting the fields of the word back together in its format. -/
theorem encodeOfDecodeIsTheWord : Obligations.EncodeOfDecodeIsTheWord :=
  fun _ _ h => ⟨wellFormed_of_decode h, encode_of_reading (reading_of_decode h)⟩

/-! ### The fields and the immediates of a decoded word -/

section Operands
variable {w : Word} {i : Instr} {r : RegIdx}

theorem Reading.dest (h : Reading w i) (hr : i.dest = some r) : r = rdField w := by
  cases h with
  | add | sub | srl | and | or | slt | addi | lw | jalr | jal => exact (Option.some.inj hr).symm
  | sw | beq | bne | blt => cases hr

theorem Reading.source0 (h : Reading w i) (hr : i.sources[0]? = some r) : r = rs1Field w := by
  cases h with
  | add | sub | srl | and | or | slt | addi | lw | jalr | sw | beq | bne | blt => exact (Option.some.inj hr).symm
  | jal => cases hr

theorem Reading.source1 (h : Reading w i) (hr : i.sources[1]? = some r) : r = rs2Field w := by
  cases h with
  | add | sub | srl | and | or | slt | sw | beq | bne | blt => exact (Option.some.inj hr).symm
  | addi | lw | jalr | jal => cases hr

end Operands

/-- Settles O24, by the register fields of what the Decoder reads. -/
theorem fieldsStandAtTheirFixedPositions : Obligations.FieldsStandAtTheirFixedPositions := by
  refine fun w => ⟨opcode_toNat w, funct3_toNat w, funct7_toNat w, fun i hi => ?_⟩
  have hread := reading_of_decode hi
  refine ⟨fun r hr => ?_, fun r hr => ?_, fun r hr => ?_⟩
  · rw [hread.dest hr, rdField_val]
  · rw [hread.source0 hr, rs1Field_val]
  · rw [hread.source1 hr, rs2Field_val]

/-- Settles O25: the value by what the Decoder reads, the range because what is decoded is well formed. -/
theorem immediateOfIFormIsSignExtended : Obligations.ImmediateOfIFormIsSignExtended := by
  intro w rd rs1 imm h
  have himm : imm = immI w := by
    rcases h with h | h | h <;> cases reading_of_decode h <;> rfl
  have hok : imm12Ok imm = true := by
    rcases h with h | h | h <;> exact wellFormed_of_decode h
  exact ⟨by rw [himm, immI, toInt_eq_sext, immIBits_toNat], imm12Ok_iff.mp hok⟩

/-- Settles O26, as for the I form. -/
theorem immediateOfSFormIsSignExtended : Obligations.ImmediateOfSFormIsSignExtended := by
  intro w rs1 rs2 imm h
  have himm : imm = immS w := by
    cases reading_of_decode h
    rfl
  exact ⟨by rw [himm, immS, toInt_eq_sext, immSBits_toNat], imm12Ok_iff.mp (wellFormed_of_decode h)⟩

/-- Settles O27, as for the I form; being well formed holds the parity too. -/
theorem immediateOfBFormIsSignExtended : Obligations.ImmediateOfBFormIsSignExtended := by
  intro w rs1 rs2 imm h
  have himm : imm = immB w := by
    rcases h with h | h | h <;> cases reading_of_decode h <;> rfl
  have hok : immBOk imm = true := by
    rcases h with h | h | h <;> exact wellFormed_of_decode h
  exact ⟨by rw [himm, immB, toInt_eq_sext, immBBits_toNat], immBOk_iff.mp hok⟩

/-- Settles O28, as for the B form. -/
theorem immediateOfJFormIsSignExtended : Obligations.ImmediateOfJFormIsSignExtended := by
  intro w rd imm h
  have himm : imm = immJ w := by
    cases reading_of_decode h
    rfl
  exact ⟨by rw [himm, immJ, toInt_eq_sext, immJBits_toNat], immJOk_iff.mp (wellFormed_of_decode h)⟩

/-! ### The opcode table -/

/-- No two rows have the same mnemonic. -/
theorem opcodeRows_mnemonics : opcodeRows.Pairwise fun r q => r.mnemonic ≠ q.mnemonic := by decide

theorem row_eq_of_mnemonic {r q : OpcodeRow} (hr : r ∈ opcodeRows) (hq : q ∈ opcodeRows)
    (h : r.mnemonic = q.mnemonic) : r = q :=
  List.inj_on_of_nodup_map (List.pairwise_map.mpr opcodeRows_mnemonics) hr hq h

section Rows
variable {w v : Word} {n : String} {i : Instr} {f7 : BitVec 7} {f3 : BitVec 3} {op : BitVec 7}

theorem reads_of_matches_R (hread : opcode w = op → funct3 w = f3 → funct7 w = f7 → Reading w i)
    (hn : i.mnemonic = n) (hv : v.toNat = f7.toNat * 2 ^ 25 + f3.toNat * 2 ^ 12 + op.toNat)
    (h : OpcodeRow.matchesWord ⟨n, v, 0xFE00707F⟩ w = true) : ∃ i, Reading w i ∧ i.mnemonic = n :=
  have ⟨ho, h3, h7⟩ := (matchesWord_R n f7 f3 op v w hv).mp h
  ⟨i, hread ho h3 h7, hn⟩

theorem reads_of_matches_I (hread : opcode w = op → funct3 w = f3 → Reading w i) (hn : i.mnemonic = n)
    (hv : v.toNat = f3.toNat * 2 ^ 12 + op.toNat)
    (h : OpcodeRow.matchesWord ⟨n, v, 0x0000707F⟩ w = true) : ∃ i, Reading w i ∧ i.mnemonic = n :=
  have ⟨ho, h3⟩ := (matchesWord_I n f3 op v w hv).mp h
  ⟨i, hread ho h3, hn⟩

theorem reads_of_matches_J (hread : opcode w = op → Reading w i) (hn : i.mnemonic = n) (hv : v.toNat = op.toNat)
    (h : OpcodeRow.matchesWord ⟨n, v, 0x0000007F⟩ w = true) : ∃ i, Reading w i ∧ i.mnemonic = n :=
  ⟨i, hread ((matchesWord_J n op v w hv).mp h), hn⟩

end Rows

/-- The Decoder reads a word that matches a row as an instruction of the row. -/
theorem reading_of_matchesWord (w : Word) :
    ∀ r ∈ opcodeRows, r.matchesWord w = true → ∃ i, Reading w i ∧ i.mnemonic = r.mnemonic := by
  simp only [opcodeRows, List.forall_mem_cons]
  exact ⟨reads_of_matches_R .add rfl rfl, reads_of_matches_R .sub rfl rfl, reads_of_matches_R .srl rfl rfl,
    reads_of_matches_R .and rfl rfl, reads_of_matches_R .or rfl rfl, reads_of_matches_R .slt rfl rfl,
    reads_of_matches_I .addi rfl rfl, reads_of_matches_I .lw rfl rfl, reads_of_matches_I .jalr rfl rfl,
    reads_of_matches_I .sw rfl rfl, reads_of_matches_I .beq rfl rfl, reads_of_matches_I .bne rfl rfl,
    reads_of_matches_I .blt rfl rfl, reads_of_matches_J .jal rfl rfl, by simp⟩

/-- A word read as an instruction matches the row of the instruction's mnemonic. -/
theorem Reading.matches_row {w : Word} {i : Instr} (h : Reading w i) :
    ∃ r ∈ opcodeRows, r.mnemonic = i.mnemonic ∧ r.matchesWord w = true := by
  cases h with
  | add ho h3 h7 | sub ho h3 h7 | srl ho h3 h7 | and ho h3 h7 | or ho h3 h7 | slt ho h3 h7 =>
    simp [opcodeRows, Instr.mnemonic, matchesWord_iff, -BitVec.toNat_and, and_mask_R, ho, h3, h7]
  | addi ho h3 | lw ho h3 | jalr ho h3 | sw ho h3 | beq ho h3 | bne ho h3 | blt ho h3 =>
    simp [opcodeRows, Instr.mnemonic, matchesWord_iff, -BitVec.toNat_and, and_mask_I, ho, h3]
  | jal ho => simp [opcodeRows, Instr.mnemonic, matchesWord_iff, -BitVec.toNat_and, and_mask_J, ho]

/-- A word matches a row exactly when it is decoded to an instruction of the row. -/
theorem matchesWord_iff_decode (w : Word) {r : OpcodeRow} (hr : r ∈ opcodeRows) :
    r.matchesWord w = true ↔ ∃ i, decode w = .instr i ∧ i.mnemonic = r.mnemonic := by
  constructor
  · intro h
    obtain ⟨i, hread, hn⟩ := reading_of_matchesWord w r hr h
    exact ⟨i, decode_of_reading hread, hn⟩
  · rintro ⟨i, hd, hn⟩
    obtain ⟨q, hq, hqn, hmatch⟩ := (reading_of_decode hd).matches_row
    rwa [row_eq_of_mnemonic hr hq (hn.symm.trans hqn.symm)]

/-- Settles O29, by `matchesWord_iff_decode`; a word decoded to Unknown is decoded to no instruction. -/
theorem decoderFollowsTheOpcodeTable : Obligations.DecoderFollowsTheOpcodeTable := by
  refine ⟨fun w r hr => matchesWord_iff_decode w hr, fun w raw h => ⟨decode_unknown_raw h, fun r hr => ?_⟩,
    fun w i h => ?_⟩
  · refine Bool.eq_false_iff.mpr fun hmatch => ?_
    obtain ⟨i, hd, -⟩ := (matchesWord_iff_decode w hr).mp hmatch
    cases h.symm.trans hd
  · obtain ⟨r, hr, hn, -⟩ := (reading_of_decode h).matches_row
    exact ⟨r, hr, hn⟩

/-- Settles O30: a word that matches two rows would be decoded to instructions of two mnemonics. -/
theorem opcodeRowsArePairwiseDisjoint : Obligations.OpcodeRowsArePairwiseDisjoint := by
  refine opcodeRows_mnemonics.imp_of_mem fun {r q} hr hq hne w => ?_
  rintro ⟨hrw, hqw⟩
  obtain ⟨i, hi, hir⟩ := (matchesWord_iff_decode w hr).mp hrw
  obtain ⟨j, hj, hjq⟩ := (matchesWord_iff_decode w hq).mp hqw
  cases hi.symm.trans hj
  exact hne (hir.symm.trans hjq)

/-! ### The words that are no instruction -/

/-- The opcodes in use (30_encoding.md R101). -/
def opcodesInUse : List (BitVec 7) :=
  [0b0110011#7, 0b0010011#7, 0b0000011#7, 0b1100111#7, 0b0100011#7, 0b1100011#7, 0b1101111#7]

/-- The word has an opcode in use, with selectors that an operation of that opcode has (30_encoding.md R100). -/
def SelectorsInUse (w : Word) : Prop :=
  opcode w = 0b0110011#7 ∧ (funct7 w = 0#7 ∧ funct3 w ∈ [0b000#3, 0b101#3, 0b111#3, 0b110#3, 0b010#3]
    ∨ funct7 w = 0b0100000#7 ∧ funct3 w = 0b000#3) ∨
  (opcode w, funct3 w) ∈ [(0b0010011#7, 0b000#3), (0b0000011#7, 0b010#3), (0b1100111#7, 0b000#3),
    (0b0100011#7, 0b010#3), (0b1100011#7, 0b000#3), (0b1100011#7, 0b001#3), (0b1100011#7, 0b100#3)] ∨
  opcode w = 0b1101111#7

theorem Reading.opcode_mem {w : Word} {i : Instr} (h : Reading w i) : opcode w ∈ opcodesInUse := by
  cases h <;> simp [opcodesInUse, *]

theorem Reading.selectorsInUse {w : Word} {i : Instr} (h : Reading w i) : SelectorsInUse w := by
  cases h <;> simp [SelectorsInUse, *]

theorem unknown_of_opcode_unused {w : Word} (h : opcode w ∉ opcodesInUse) : decode w = .unknown w :=
  unknown_of_no_reading fun _ hread => h hread.opcode_mem

theorem unknown_of_selectors_unused {w : Word} (h : ¬ SelectorsInUse w) : decode w = .unknown w :=
  unknown_of_no_reading fun _ hread => h hread.selectorsInUse

/-- The low two bits of every opcode in use are 11. -/
theorem low_bits_of_opcode_mem {w : Word} (h : opcode w ∈ opcodesInUse) : w.toNat % 4 = 3 := by
  have hlow : ∀ op ∈ opcodesInUse, op.toNat % 4 = 3 := by decide
  have hw := hlow _ h
  rw [opcode_toNat] at hw
  omega

/-- Settles O31: an unused opcode in the first three clauses, then unused selectors under each opcode in use. -/
theorem otherWordsDecodeToUnknown : Obligations.OtherWordsDecodeToUnknown := by
  intro w
  refine ⟨unknown_of_opcode_unused,
    fun hlow => unknown_of_opcode_unused fun hmem => hlow (low_bits_of_opcode_mem hmem),
    fun hop => unknown_of_opcode_unused ?_, fun ⟨ho, hsel⟩ => unknown_of_selectors_unused ?_,
    fun ⟨ho, h3⟩ => unknown_of_selectors_unused ?_, fun ⟨ho, h3⟩ => unknown_of_selectors_unused ?_,
    fun ⟨ho, h3⟩ => unknown_of_selectors_unused ?_, fun ⟨ho, h3⟩ => unknown_of_selectors_unused ?_,
    fun ⟨ho, h3⟩ => unknown_of_selectors_unused ?_⟩
  · rcases hop with h | h | h | h | h | rfl
    iterate 5 (· rw [h]; decide)
    · decide
  · rcases hsel with ⟨h7, hsub⟩ | h3 | h3 | h3
    · simpa [SelectorsInUse, ho, h7] using hsub
    iterate 3 (· simp [SelectorsInUse, ho, h3])
  iterate 4 (· simp [SelectorsInUse, ho, h3])
  · have hother : funct3 w ≠ 0b000#3 ∧ funct3 w ≠ 0b001#3 ∧ funct3 w ≠ 0b100#3 := by
      revert h3
      generalize funct3 w = f3
      revert f3
      decide
    simp [SelectorsInUse, ho, hother]

end Sys2Proof
end

section
/-! SUPPORT. The statements about the step cycle (spec/40_step_cycle.md): the pattern a computed result leaves in its
register, the status an instruction completes with, and the step around it. -/

namespace Sys2Proof.Machine

/-! ### Results as patterns -/

/-- Read after write of the same register, on patterns. -/
theorem readReg_writeReg_same (s : State) (rd : RegIdx) (v : Int) :
    readReg (writeReg s rd v) rd = if rd = 0 then 0 else toWord v := by
  by_cases h0 : rd = 0
  · rw [h0, writeReg_zero, readReg_zero, if_pos rfl]
  · rw [readReg_writeReg, if_pos ⟨rfl, h0⟩, if_neg h0]

/-- An instruction whose action is a register write completes with `OK` and leaves the pattern of the value written. -/
theorem exec_gives_of_write {i : Instr} {s : State} {rd : RegIdx} {v n : Int} {w : Word}
    (hact : action s i = .write rd v n) (hv : toWord v = w) :
    ∃ t, exec i s = .next t ∧ readReg t rd = (if rd = 0 then 0 else w) ∧ t.status = some .ok := by
  rw [exec_eq_run, hact]
  refine ⟨_, rfl, ?_, rfl⟩
  rw [readReg_setStatus, readReg_setPc, readReg_writeReg_same, hv]

@[simp] theorem toWord_xs (s : State) (r : RegIdx) : toWord (xs s r) = readReg s r := toWord_of_toInt _

/-- The shift of `srl` on unsigned views is the logical shift of the pattern by the low five bits (40_step_cycle.md
R136). -/
theorem toWord_srl (s : State) (rs1 rs2 : RegIdx) :
    toWord (xu s rs1 >>> shiftAmount s rs2 : Nat) = readReg s rs1 >>> (readReg s rs2 &&& 0x1F#32) := by
  have hview : xu s rs1 >>> shiftAmount s rs2 = (readReg s rs1 >>> (readReg s rs2 &&& 0x1F#32)).toNat := by
    simp [xu, shiftAmount]
  rw [hview, toWord_of_toNat]

/-- Settles O18: each of the six instructions writes an integer with the pattern named. -/
theorem arithmeticIsThatOf32BitPatterns : Obligations.ArithmeticIsThatOf32BitPatterns := by
  intro rd rs1 rs2 imm s
  refine ⟨exec_gives_of_write rfl ?add, exec_gives_of_write rfl ?sub, exec_gives_of_write rfl ?addi,
    exec_gives_of_write rfl (toWord_srl s rs1 rs2), exec_gives_of_write rfl (toWord_of_toInt _),
    exec_gives_of_write rfl (toWord_of_toInt _)⟩
  case add => rw [toWord_add, toWord_xs, toWord_xs]
  case sub => rw [toWord_sub, toWord_xs, toWord_xs]
  case addi => rw [toWord_add, toWord_xs, toWord]

/-! ### The status of an executed instruction -/

/-- The comparison of `jalr`'s target with the pc (decision D17), as arithmetic. -/
theorem jalrTarget_eq_pc_iff (s : State) (rs1 : RegIdx) (imm : Int) :
    jalrTarget s rs1 imm = s.pc ↔ u32 (xs s rs1 + imm) / 2 * 2 = s.pc.toNat := by
  rw [← BitVec.toNat_inj, jalrTarget_toNat]

/-- The one instruction that reports a self-jump is a `jalr` to its own address (42_i_type.md R176). -/
theorem action_eq_selfJump_iff {s : State} {i : Instr} :
    action s i = .selfJump ↔
      ∃ rd rs1 imm, i = .jalr rd rs1 imm ∧ u32 (xs s rs1 + imm) / 2 * 2 = s.pc.toNat := by
  cases i with
  | jalr rd rs1 imm => simp [action, jalrTarget_eq_pc_iff]
  | add | sub | srl | and | or | slt | addi | lw | sw | beq | bne | blt | jal => simp [action]

/-- Every action but the self-jump completes with `OK`. -/
theorem Action.run_ok_status {a : Action} {s u : State} (h : a.run s = .next u) (hne : a ≠ .selfJump) :
    u.status = some .ok := by
  cases a with
  | write | store | jump => rw [complete_next.mp h]; rfl
  | selfJump => exact absurd rfl hne

/-- Settles O41: the status is that of the instruction's action. -/
theorem recognizedInstructionsAlwaysComplete : Obligations.RecognizedInstructionsAlwaysComplete := by
  intro i s
  obtain ⟨t, ht⟩ := exec_total i s
  refine ⟨t, ht, ?_⟩
  rw [← action_eq_selfJump_iff]
  rw [exec_eq_run] at ht
  by_cases hself : action s i = .selfJump
  · have hst : t.status = some .selfJump := Action.run_selfJump_status (hself ▸ ht)
    simp [hst, hself]
  · have hst : t.status = some .ok := Action.run_ok_status ht hself
    simp [hst, hself]

/-! ### The step -/

/-- Settles O35: the word at the pc is the one fetched. -/
theorem stepRunsTheDecodedInstruction : Obligations.StepRunsTheDecodedInstruction := by
  intro s w i hrun halign hword hd
  exact step_of_fetch hrun (iFetch_word.mpr ⟨halign, hword⟩) hd

end Sys2Proof.Machine
end

section
/-! SUPPORT. The statements about the R-type instructions (spec/41_r_type.md): each is a completed register write, and
what is left to say of each is the signed 32-bit view of the value written. -/

namespace Sys2Proof.Machine

/-- An instruction whose action is a register write sets that register to the value's signed view, keeps data memory and
completes at the action's pc. -/
theorem exec_completes_of_write {i : Instr} {s : State} {rd : RegIdx} {v n x : Int} (hact : action s i = .write rd v n)
    (hv : s32 v = x) : ∃ t, exec i s = .next t ∧ SetsRegister s t rd x ∧ KeepsMemory s t ∧ CompletesAt s t n := by
  rw [exec_eq_run, hact, ← hv]
  exact ⟨_, rfl, complete_writeReg_effect s rd v n⟩

/-! ### The signed view of a pattern's value -/

/-- A pattern read as signed or as unsigned has the same signed 32-bit view. -/
theorem s32_toInt_eq_s32_toNat (w : Word) : s32 w.toInt = s32 (w.toNat : Int) := by
  rw [← toWord_toInt, ← toWord_toInt, toWord_of_toInt, toWord_of_toNat]

/-- The unsigned view of a register, from its pattern. -/
theorem readReg_toNat (s : State) (r : RegIdx) : (readReg s r).toNat = u32 (xs s r) := xu_eq_u32 s r

/-! ### The six instructions -/

/-- Settles O1: the sum is what `add` writes. -/
theorem addWritesWrappedSum : Obligations.AddWritesWrappedSum :=
  fun _ _ _ _ => exec_completes_of_write rfl rfl

/-- Settles O2: the difference is what `sub` writes. -/
theorem subWritesWrappedDifference : Obligations.SubWritesWrappedDifference :=
  fun _ _ _ _ => exec_completes_of_write rfl rfl

/-- Settles O3: a right shift divides the unsigned view by a power of 2, the amount by `shiftAmount_eq`. -/
theorem srlWritesLogicalShift : Obligations.SrlWritesLogicalShift := by
  intro rd rs1 rs2 s
  refine exec_completes_of_write rfl ?_
  rw [Nat.shiftRight_eq_div_pow, xu_eq_u32, shiftAmount_eq]

/-- Settles O4: the unsigned reading of the bitwise and of two patterns. -/
theorem andWritesBitwiseAnd : Obligations.AndWritesBitwiseAnd := by
  intro rd rs1 rs2 s
  refine exec_completes_of_write rfl ?_
  rw [s32_toInt_eq_s32_toNat, BitVec.toNat_and, readReg_toNat, readReg_toNat]

/-- Settles O5: the unsigned reading of the bitwise or of two patterns. -/
theorem orWritesBitwiseOr : Obligations.OrWritesBitwiseOr := by
  intro rd rs1 rs2 s
  refine exec_completes_of_write rfl ?_
  rw [s32_toInt_eq_s32_toNat, BitVec.toNat_or, readReg_toNat, readReg_toNat]

/-- Settles O6: 1 and 0 are their own signed views. -/
theorem sltWritesSignedLess : Obligations.SltWritesSignedLess := by
  intro rd rs1 rs2 s
  refine exec_completes_of_write rfl ?_
  by_cases hlt : xs s rs1 < xs s rs2
  · rw [condLt, decide_eq_true hlt, if_pos rfl, if_pos hlt, s32_of_range 1 (by decide) (by decide)]
  · rw [condLt, decide_eq_false hlt, if_neg Bool.false_ne_true, if_neg hlt, s32_of_range 0 (by decide) (by decide)]

end Sys2Proof.Machine
end

section
/-! SUPPORT. The statements about the I-type instructions (spec/42_i_type.md): `addi` and `lw` are completed register
writes; `jalr` is one too, or a reported self-jump. -/

namespace Sys2Proof.Machine

/-- Settles O7: the sum is what `addi` writes. -/
theorem addiWritesWrappedSum : Obligations.AddiWritesWrappedSum :=
  fun _ _ _ _ => exec_completes_of_write rfl rfl

/-! ### `lw` -/

/-- A byte of data memory named from the start of an access; the wrap of its address is decision D4. -/
theorem dmem_add (s : State) (addr : Int) (k : Nat) :
    dmem s (addr + k) = (readByte s.mem (toWord addr + BitVec.ofNat 32 k)).toNat := by
  rw [dmem, ofNat_u32, toWord_add]
  rfl

/-- A word read of data memory, byte by byte (20_memory.md R53). -/
theorem memRead_word_eq_dmem (s : State) (addr : Int) :
    memRead s.mem (toWord addr) .word
      = dmem s addr + dmem s (addr + 1) * 2 ^ 8 + dmem s (addr + 2) * 2 ^ 16 + dmem s (addr + 3) * 2 ^ 24 := by
  have hsum : memRead s.mem (toWord addr) .word
      = ((List.range 4).map fun k : Nat => dmem s (addr + k) * 2 ^ (8 * k)).sum := by
    simp only [dmem_add]
    exact loadBytes_eq_sum s.mem (toWord addr) 4
  rw [hsum]
  simp [List.sum_range_succ]

/-- Settles O8: the word at the effective address is what `lw` writes. -/
theorem lwLoadsLittleEndianWord : Obligations.LwLoadsLittleEndianWord := by
  intro rd rs1 imm s
  refine exec_completes_of_write rfl ?_
  rw [effectiveAddr, memRead_word_eq_dmem]

/-! ### `jalr` -/

/-- A reported self-jump answers a next state that keeps the registers, data memory and what the run is given; the pc
advances by 4 and the policy decides the latch (60_exceptions.md R243). -/
theorem reportSelfJump_effect (s : State) : ∃ t, reportSelfJump s = .next t ∧ KeepsMemory s t ∧ KeepsRegisters s t ∧
    t.pc.toNat = u32 (s.pc.toNat + 4) ∧ t.status = some .selfJump ∧ KeepsRun s t ∧
    (s.selfJumpPolicy = .continueRun → t.stopped = s.stopped) ∧ (s.selfJumpPolicy = .haltRun → t.stopped = true) := by
  obtain ⟨t, ht⟩ := reportSelfJump_total s
  obtain ⟨hregs, hpc, hmem, hprog, hinit, hpolicy, hstatus, hcont, hhalt⟩ := reportSelfJump_next.mp ht
  refine ⟨t, ht, fun a => by rw [hmem], xs_congr t s hregs, ?_, hstatus, ⟨hprog, hinit, hpolicy⟩, hcont, hhalt⟩
  rw [hpc, toWord_toNat, pcPlus4]

/-- Settles O9: by cases on whether the target is the instruction's own address (decision D17). -/
theorem jalrLinksOrReportsSelfJump : Obligations.JalrLinksOrReportsSelfJump := by
  intro rd rs1 imm s
  by_cases hself : u32 (xs s rs1 + imm) / 2 * 2 = s.pc.toNat
  · have hact : action s (.jalr rd rs1 imm) = .selfJump := if_pos ((jalrTarget_eq_pc_iff s rs1 imm).mpr hself)
    simp only [if_pos hself, exec_eq_run, hact]
    exact reportSelfJump_effect s
  · have hact : action s (.jalr rd rs1 imm)
        = .write rd (pcPlus4 s) (u32 (xs s rs1 + imm) / 2 * 2 : Nat) := by
      rw [action, if_neg (mt (jalrTarget_eq_pc_iff s rs1 imm).mp hself), jalrTarget_toNat]
    obtain ⟨t, ht, hlink, hmem, hdone⟩ := exec_completes_of_write hact rfl
    simp only [if_neg hself]
    exact ⟨t, ht, hmem, hlink, hdone⟩

end Sys2Proof.Machine
end

section
/-! SUPPORT. The statement about the S-type instruction (spec/43_s_type.md): `sw` is a completed store, and what a
word's store leaves in each byte is that of `MemWrite` (spec/20_memory.md R54). -/

namespace Sys2Proof.Machine

/-- An instruction whose action is a store leaves the memory that `MemWrite` gives, keeps every register and completes
at the action's pc. -/
theorem exec_completes_of_store {i : Instr} {s : State} {a : Word} {v n : Int} (hact : action s i = .store a v n) :
    ∃ t, exec i s = .next t ∧ t.mem = memWrite s.mem a .word v ∧ KeepsRegisters s t ∧ CompletesAt s t n := by
  rw [exec_eq_run, hact]
  obtain ⟨hregs, -, hdone⟩ := complete_jump_effect (setMem s (memWrite s.mem a .word v)) n
  exact ⟨_, rfl, rfl, hregs, hdone⟩

/-- A word's store of a register, byte by byte; the wrap of the byte addresses is decision D4. -/
theorem memWrite_word_xu (s : State) (addr : Int) (r : RegIdx) :
    (∀ k : Nat, k < 4 → (readByte (memWrite s.mem (toWord addr) .word (xu s r)) (toWord addr + BitVec.ofNat 32 k)).toNat
      = u32 (xs s r) / 2 ^ (8 * k) % 256) ∧
    ∀ a, (∀ k : Nat, k < 4 → a ≠ toWord addr + BitVec.ofNat 32 k) →
      readByte (memWrite s.mem (toWord addr) .word (xu s r)) a = readByte s.mem a := by
  have hbits : u32 (xu s r) = u32 (xs s r) := by rw [← xu_eq_u32, xu, u32_toNat]
  simp only [← toWord_u32_add, ← hbits]
  exact memWriteSetsItsBytesOnly s.mem addr .word (xu s r)

/-- Settles O10: the word's store at the effective address is the whole of what `sw` does to data memory. -/
theorem swStoresLittleEndianWord : Obligations.SwStoresLittleEndianWord := by
  intro rs1 rs2 imm s
  obtain ⟨t, ht, hmem, hregs, hdone⟩ := exec_completes_of_store (i := .sw rs1 rs2 imm) (s := s) rfl
  obtain ⟨hinside, houtside⟩ := memWrite_word_xu s (xs s rs1 + imm) rs2
  rw [effectiveAddr] at hmem
  rw [← hmem] at hinside houtside
  exact ⟨t, ht, effectiveAddr_toNat s rs1 imm, hinside, houtside, hregs, hdone⟩

end Sys2Proof.Machine
end

section
/-! SUPPORT. The statements about the B-type instructions (spec/44_b_type.md): a branch is a jump and nothing more, to
the address that the instruction's row of the next-pc table (spec/10_state.md R27) gives. -/

namespace Sys2Proof.Machine

/-- An instruction whose action is a jump keeps every register and data memory, and completes at its entry in the
next-pc table. -/
theorem exec_completes_of_jump {i : Instr} {s : State} {n : Int} (hact : action s i = .jump n) :
    ∃ t, exec i s = .next t ∧ KeepsRegisters s t ∧ KeepsMemory s t ∧ CompletesAt s t (nextPcTable s i) := by
  have hpc : n = nextPcTable s i := by rw [← nextPc_action, hact, Action.nextPc]
  rw [exec_eq_run, hact, ← hpc]
  exact ⟨_, rfl, complete_jump_effect s n⟩

/-- Settles O11: the row of `beq` tests for equality. -/
theorem beqBranchesWhenEqual : Obligations.BeqBranchesWhenEqual :=
  fun rs1 rs2 imm _ => exec_completes_of_jump (i := .beq rs1 rs2 imm) rfl

/-- Settles O12: the row of `bne` tests for inequality, so the statement's two outcomes stand the other way round. -/
theorem bneBranchesWhenDifferent : Obligations.BneBranchesWhenDifferent := by
  intro rs1 rs2 imm s
  have hrow : nextPcTable s (.bne rs1 rs2 imm)
      = if xs s rs1 = xs s rs2 then (s.pc.toNat : Int) + 4 else s.pc.toNat + imm := ite_not ..
  rw [← hrow]
  exact exec_completes_of_jump rfl

/-- Settles O13: the row of `blt` compares the signed values. -/
theorem bltBranchesWhenSignedLess : Obligations.BltBranchesWhenSignedLess :=
  fun rs1 rs2 imm _ => exec_completes_of_jump (i := .blt rs1 rs2 imm) rfl

end Sys2Proof.Machine
end

section
/-! SUPPORT. The statement about the J-type instruction (spec/45_j_type.md): `jal` is a completed register write of the
link, at the pc-relative target. -/

namespace Sys2Proof.Machine

/-- Settles O14: unlike that of `jalr`, the action of `jal` is the write of its link whatever its target, its own
address included. -/
theorem jalLinksAndJumps : Obligations.JalLinksAndJumps := by
  intro rd imm s
  have hact : action s (.jal rd imm) = .write rd (s.pc.toNat + 4) (s.pc.toNat + imm) := rfl
  exact exec_completes_of_write hact rfl

end Sys2Proof.Machine
end

section
/-! SUPPORT. The statement about Unknown (spec/46_unknown.md): a step reports `UNRECOGNIZED(w)` for a fetched word that is
decoded to no instruction, and these are the words outside the opcode table. -/

namespace Sys2Proof.Machine

/-- The words decoded to Unknown are those that match no row of the opcode table (46_unknown.md R225). -/
theorem decode_unknown_iff_no_row {w : Word} :
    decode w = .unknown w ↔ ∀ r ∈ opcodeRows, r.matchesWord w = false := by
  constructor
  · intro h
    obtain ⟨-, hunknown, -⟩ := decoderFollowsTheOpcodeTable
    exact (hunknown w w h).2
  · refine fun hnone => unknown_of_no_reading fun i hread => ?_
    obtain ⟨r, hr, -, hmatch⟩ := hread.matches_row
    exact Bool.eq_false_iff.mp (hnone r hr) hmatch

/-- A core that runs does what instruction fetch asks for (40_step_cycle.md R130). -/
theorem step_of_running {s : State} (hrun : s.stopped = false) : step s = stepFetched s (iFetch s.prog s.pc) :=
  if_neg (Bool.eq_false_iff.mp hrun)

/-- `UNRECOGNIZED(w)` is the answer to the fetched word `w` decoded to Unknown, and to nothing else. -/
theorem stepFetched_unrecognized_iff {s : State} {f : Fetched} {w : Word} :
    stepFetched s f = .fault (.unrecognized w) ↔ f = .word w ∧ decode w = .unknown w := by
  cases f with
  | atEnd | noInstr => simp [stepFetched, haltEnd, raiseFetchFault]
  | word v =>
    rw [Fetched.word.injEq]
    rcases decode_total v with ⟨i, hd⟩ | hd
    · obtain ⟨u, hu⟩ := exec_total i s
      have hknown : ¬ (v = w ∧ decode w = .unknown w) := by
        rintro ⟨rfl, hunknown⟩
        cases hd.symm.trans hunknown
      simp [stepFetched, hd, hu, hknown]
    · simp only [stepFetched, hd, raiseUnrecognized, Host.Outcome.fault.injEq, Fault.unrecognized.injEq]
      exact (and_iff_left_of_imp fun hvw => hvw ▸ hd).symm

/-- Settles O37: a stopped core answers another fault; one that runs answers by the word it fetches. -/
theorem stepStopsOnUnknownWordsExactly : Obligations.StepStopsOnUnknownWordsExactly := by
  intro s w
  cases hrun : s.stopped with
  | true => simp [(step_stopped_iff s).mpr hrun]
  | false =>
    rw [step_of_running hrun, stepFetched_unrecognized_iff, iFetch_word, decode_unknown_iff_no_row, and_assoc]
    exact (and_iff_right rfl).symm

end Sys2Proof.Machine
end

section
/-! SUPPORT. The statements about how a step stops (spec/60_exceptions.md): `FETCH_FAULT` and `HALT_END` are what the
core makes of the two answers of instruction fetch that are no word, and those depend on the pc and the length of the
program alone (spec/20_memory.md R58). -/

namespace Sys2Proof.Machine

/-! ### The two answers of instruction fetch that are no word -/

/-- Instruction fetch answers the end of the program exactly at `4*N` (decision D6). -/
theorem iFetch_atEnd {prog : List Word} {p : Word} : iFetch prog p = .atEnd ↔ p.toNat = 4 * prog.length := by
  unfold iFetch
  split
  · exact iff_of_false nofun (by omega)
  · cases hslot : prog[p.toNat / 4]? with
    | some w =>
      have hin : p.toNat / 4 < prog.length := (List.getElem?_eq_some_iff.mp hslot).1
      exact iff_of_false nofun (by omega)
    | none => by_cases hend : p.toNat = 4 * prog.length <;> simp [hend]

/-- No instruction stands at a misaligned pc and none beyond `4*N` (decision D7). -/
theorem iFetch_noInstr {prog : List Word} {p : Word} :
    iFetch prog p = .noInstr ↔ p.toNat % 4 ≠ 0 ∨ p.toNat > 4 * prog.length := by
  cases hf : iFetch prog p with
  | word w =>
    obtain ⟨halign, hslot⟩ := iFetch_word.mp hf
    have hin : p.toNat / 4 < prog.length := (List.getElem?_eq_some_iff.mp hslot).1
    exact iff_of_false nofun (by omega)
  | atEnd =>
    have hend := iFetch_atEnd.mp hf
    exact iff_of_false nofun (by omega)
  | noInstr =>
    refine iff_of_true rfl (or_iff_not_imp_left.mpr fun halign => ?_)
    have hend : p.toNat ≠ 4 * prog.length := fun h => nomatch hf.symm.trans (iFetch_atEnd.mpr h)
    have hout : ¬ p.toNat / 4 < prog.length := fun hin =>
      nomatch hf.symm.trans (iFetch_word.mpr ⟨not_not.mp halign, List.getElem?_eq_getElem hin⟩)
    omega

/-! ### What the core does with them -/

/-- A fetched word is executed, or reported as unrecognized. -/
theorem stepFetched_word (s : State) (w : Word) :
    (∃ u, stepFetched s (.word w) = .next u) ∨ stepFetched s (.word w) = .fault (.unrecognized w) := by
  rcases decode_total w with ⟨i, hd⟩ | hd
  · obtain ⟨u, hu⟩ := exec_total i s
    exact .inl ⟨u, by simp only [stepFetched, hd, hu]⟩
  · exact .inr (by simp only [stepFetched, hd, raiseUnrecognized])

/-- `FETCH_FAULT` is the answer where no instruction stands, and nowhere else; it reports the pc. -/
theorem stepFetched_fetchFault_iff {s : State} {f : Fetched} {p : Word} :
    stepFetched s f = .fault (.fetchFault p) ↔ p = s.pc ∧ f = .noInstr := by
  cases f with
  | atEnd => simp [stepFetched, haltEnd]
  | noInstr => simp [stepFetched, raiseFetchFault, eq_comm]
  | word w => rcases stepFetched_word s w with ⟨u, hu⟩ | hu <;> simp [hu]

/-- Settles O38: a stopped core answers another fault; one that runs answers by what its fetch finds. -/
theorem stepStopsWhereNoInstructionStands : Obligations.StepStopsWhereNoInstructionStands := by
  intro s p
  cases hrun : s.stopped with
  | true => simp [(step_stopped_iff s).mpr hrun]
  | false =>
    rw [step_of_running hrun, stepFetched_fetchFault_iff, iFetch_noInstr]
    exact (and_iff_right rfl).symm

/-- An executed instruction does not report `HALT_END`. -/
theorem exec_status_ne_haltEnd {i : Instr} {s u : State} (h : exec i s = .next u) : u.status ≠ some .haltEnd := by
  obtain ⟨t, ht, hstatus, -⟩ := recognizedInstructionsAlwaysComplete i s
  obtain rfl : t = u := Host.Outcome.next.inj (ht.symm.trans h)
  rcases hstatus with hok | hself
  · simp [hok]
  · simp [hself]

/-- Settles O39: the fetch at `4*N` answers the end of the program, and no executed instruction reports `HALT_END`. -/
theorem runEndsNormallyAtTheProgramEnd : Obligations.RunEndsNormallyAtTheProgramEnd := by
  refine ⟨fun s hrun hpc => ?_, fun s t hstep hstatus => ?_⟩
  · rw [step_of_running hrun, iFetch_atEnd.mpr hpc]
    rfl
  · obtain ⟨-, ⟨hend, -⟩ | ⟨w, i, -, -, hexec⟩⟩ := step_cases hstep
    · exact iFetch_atEnd.mp hend
    · exact absurd hstatus (exec_status_ne_haltEnd hexec)

end Sys2Proof.Machine
end

section
/-! SUPPORT. The statements about reset (spec/70_reset_and_hazards.md) and about the words of the test vectors
(spec/95_test_vectors.md): a reset depends on what the run is given alone, which every state of the run holds; the words
are closed instances of the Decoder. -/

namespace Sys2Proof

/-- Settles O34: the Decoder evaluated on each of the five words. -/
theorem writtenOutWordsDecode : Obligations.WrittenOutWordsDecode := by
  unfold Obligations.WrittenOutWordsDecode
  decide

namespace Machine

/-- What a run is given is the same in every state it reaches. -/
theorem Reaches.keepsRun {s t : State} (h : Reaches s t) : KeepsRun s t :=
  h.induct ⟨rfl, rfl, rfl⟩ fun _ _ hkeep hstep => hkeep.trans (step_keepsRun hstep)

/-- Reset reads what the run is given and nothing else of the state (70_reset_and_hazards.md R270). -/
theorem KeepsRun.applyReset_eq {s t : State} (h : KeepsRun s t) : applyReset t = applyReset s := by
  obtain ⟨hprog, hinit, hpolicy⟩ := h
  rw [applyReset, applyReset, hprog, hinit, hpolicy]

/-- Settles O45: a run keeps what reset reads, and O44 gives the stack pointer after reset. -/
theorem resetStartsANewRun : Obligations.ResetStartsANewRun := by
  intro s t hreach
  have hreset : applyReset t = applyReset s := hreach.keepsRun.applyReset_eq
  obtain ⟨-, hsp, -⟩ := resetGivesTheTabledValues s.prog s.memInit s.selfJumpPolicy
  rw [hreset]
  exact ⟨rfl, rfl, hsp⟩

end Machine

end Sys2Proof
end
